-- ==== Sys2Proof/Word.lean ====
section
/-! DEFINITION. The word types of the two units and the names of their lines and step events
(00_scope.md section 6, 10_state.md, 20_memory.md R37). -/

namespace Sys2Proof

/-- A digital line's level: `false` is 0 (low), `true` is 1 (high) (00_scope.md section 6). -/
abbrev Level := Bool

/-- The 2-bit snapshot of the encoder lines: bit 1 is line A, bit 0 is line B (10_state.md R13, decision D3). -/
abbrev Snapshot := BitVec 2

/-- `WORD_BITS`, the width of the tuning word (00_scope.md R7). -/
@[simp] abbrev Config.wordBits : Nat := 32

/-- `FRAME_BITS`, four frequency bytes and the control byte (00_scope.md R7). -/
@[simp] abbrev Config.frameBits : Nat := 40

/-- `FREQ_BITS`, the width of the frequency operand (00_scope.md R8). -/
@[simp] abbrev Config.freqBits : Nat := 32

/-- DDSSER's frequency operand, an unsigned number of hertz (00_scope.md R8, 30_encoding.md R61). -/
abbrev Hertz := BitVec Config.freqBits

/-- The tuning word (00_scope.md R7, 41_ddsser.md R91). -/
abbrev TuningWord := BitVec Config.wordBits

/-- The serial frame F40 (00_scope.md R7, 30_encoding.md R56). -/
abbrev Frame := BitVec Config.frameBits

/-- DDSSER's four output lines (10_state.md R16, 20_memory.md R37). -/
inductive OutLine where
  | data
  | clk
  | fqUd
  | reset
  deriving DecidableEq, Repr

/-- A step event: `inc` is Step(+1), `dec` is Step(-1) (00_scope.md section 7, 30_encoding.md R59). -/
inductive StepEvent where
  | inc
  | dec
  deriving DecidableEq, Repr

/-- One entry of the output trace: a line and the level written (20_memory.md R32, 30_encoding.md R60). -/
structure PinEntry where
  line  : OutLine
  level : Level
  deriving DecidableEq, Repr

end Sys2Proof
end

