-- ==== Sys2Proof/Config.lean ====
section
/-! DEFINITION. What one build of the hardware fixes (00_scope.md R7, R8): the types of the configuration and the
parameters the spec leaves OPEN, each an opaque constant of which nothing can be proved. The constants the document
gives are in Sys2Proof/Machine/Constants.lean, so that a later finding about one of them can be mended. -/

namespace Sys2Proof

/-- The bands, in their cyclic order (42_tuning_context.md R120). -/
inductive Band where
  | m10
  | m15
  | m20
  | m40
  | m80
  | m160
  deriving DecidableEq, Repr

/-- A band's attributes, in whole kilohertz (42_tuning_context.md R120, R137). -/
structure BandRow where
  dflt : Nat
  min  : Nat
  max  : Nat
  deriving DecidableEq, Repr

/-- The band table (42_tuning_context.md R121): one row per band, immutable for the process lifetime. -/
structure BandTable where
  m10  : BandRow
  m15  : BandRow
  m20  : BandRow
  m40  : BandRow
  m80  : BandRow
  m160 : BandRow
  deriving DecidableEq, Repr

/-- The configuration a machine carries and no step writes: the arming literals (00_scope.md R7, 40_qdec.md R82,
decision D10), whether QDEC has the position counter (R8, `HAS_POS`), and the band table (R121, decision D24).
DESIGN CHOICE (log 9): it stands in the state, so that a statement about every state holds for every configuration. -/
structure Params where
  armA   : Snapshot
  armB   : Snapshot
  hasPos : Bool
  bands  : BandTable
  deriving DecidableEq, Repr

/-- `POS_WIDTH` less its lower bound 2 (00_scope.md R8: OPEN, at least 2). Opaque: no value of it can be proved (log 8). -/
opaque Config.posWidthExcess : Nat

/-- Three unconstrained numbers for each band whose row the document leaves OPEN (42_tuning_context.md R121, log 10). -/
opaque Config.openBandNumbers : Band → Nat × Nat × Nat

/-- The free value that orders two pending notifications when nothing else does: `true` services line A first
(40_qdec.md R78 names no winner; log 11). It is applied to the counter `State.draws`. -/
opaque Config.serviceAFirst : Nat → Bool

/-- `PULSE_WIDTH`, OPEN and used by no rule (00_scope.md R8, 41_ddsser.md R105; log 21). -/
opaque Config.pulseWidth : Nat

/-- `SETTLE_DELAY`, OPEN and used by no rule (00_scope.md R8, 42_tuning_context.md R132; log 21). -/
opaque Config.settleDelay : Nat

end Sys2Proof
end

