-- ==== Sys2Proof/Machine/Constants.lean ====
section
/-! DEFINITION. The constants the document fixes (00_scope.md R7), the decided parameters (R8), and the configuration
made of them. They stand in this folder so that a later repair may mend one. -/

namespace Sys2Proof

/-- `REF_CLK_HZ`, the DDS reference clock (00_scope.md R7). -/
def Config.refClkHz : Nat := 125000000

/-- `CTRL_BYTE`, the all-zero control byte (00_scope.md R7, 30_encoding.md R56). -/
def Config.ctrlByte : BitVec 8 := 0x00#8

/-- `DETENT`: both lines high (00_scope.md R7). -/
def Config.detent : Snapshot := 0b11#2

/-- `ARM_A`: A low, B high, the document's literal (00_scope.md R7; 90_conflicts.md C4). -/
def Config.armA : Snapshot := 0b01#2

/-- `ARM_B`: A high, B low, the document's literal (00_scope.md R7; 90_conflicts.md C4). -/
def Config.armB : Snapshot := 0b10#2

/-- `STEP_A`: the line-A handler emits a decrement (00_scope.md R7). -/
def Config.stepA : StepEvent := .dec

/-- `STEP_B`: the line-B handler emits an increment (00_scope.md R7). -/
def Config.stepB : StepEvent := .inc

/-- `STEP_SIZE_KHZ` (00_scope.md R7, 42_tuning_context.md R126). -/
def Config.stepSizeKHz : Nat := 1

/-- `OFFSET_KHZ` (00_scope.md R7, 42_tuning_context.md R129). -/
def Config.offsetKHz : Nat := 9000

/-- `FREQ_MAX_HZ`, the largest frequency whose tuning word fits 32 bits (00_scope.md R8, 41_ddsser.md R92). -/
def Config.freqMaxHz : Nat := 124999999

/-- The bound on every `max` of the band table, about 29.7 MHz (42_tuning_context.md R121; read as exactly 29700 kHz, log 10). -/
def Config.bandMaxKHz : Nat := 29700

/-- `HAS_POS` is true (00_scope.md R8, 90_conflicts.md C1). -/
def Config.hasPos : Bool := true

/-- `POS_WIDTH`: any width of at least 2 (00_scope.md R8). -/
def Config.posWidth : Nat := Config.posWidthExcess + 2

/-- A row that meets `min ≤ default ≤ max ≤ 29700`, made from three numbers so that every such row is reached
(42_tuning_context.md R120, R121; log 10). -/
def BandRow.within (n : Nat × Nat × Nat) : BandRow :=
  let top := n.1 % (Config.bandMaxKHz + 1)
  let bottom := n.2.1 % (top + 1)
  { dflt := bottom + n.2.2 % (top - bottom + 1), min := bottom, max := top }

/-- The document's band table: 20 m and 40 m are given, the other four rows are open (42_tuning_context.md R121). -/
def BandTable.document : BandTable where
  m10  := .within (Config.openBandNumbers .m10)
  m15  := .within (Config.openBandNumbers .m15)
  m20  := { dflt := 14000, min := 14000, max := 14350 }
  m40  := { dflt := 7000, min := 7000, max := 7300 }
  m80  := .within (Config.openBandNumbers .m80)
  m160 := .within (Config.openBandNumbers .m160)

/-- The row of a band. -/
def BandTable.row (t : BandTable) : Band → BandRow
  | .m10 => t.m10
  | .m15 => t.m15
  | .m20 => t.m20
  | .m40 => t.m40
  | .m80 => t.m80
  | .m160 => t.m160

/-- The document's configuration (00_scope.md R7, R8; decision D10). -/
def Params.document : Params where
  armA := Config.armA
  armB := Config.armB
  hasPos := Config.hasPos
  bands := .document

end Sys2Proof
end

