-- ==== Sys2Proof/Syntax.lean ====
section
/-! DEFINITION. The syntax: the five word formats and the one inductive of instructions, a constructor per row of
spec/opcode_table.json (30_encoding.md R50 to R60). -/

namespace Sys2Proof

/-- The five formats (30_encoding.md R50). `qe` and `sc` enter the block, `so`, `f40` and `pw` leave it. -/
inductive Format where
  | qe
  | sc
  | so
  | f40
  | pw
  deriving DecidableEq, Repr

/-- The instructions: the five operations and the twelve output codes of the table.
`nop` and `init` carry the operand bits `c[31:0]` that they ignore, so that no bit of a word is dropped (R53, R54). -/
inductive Instr where
  /-- `EDGE_A(s)` (40_qdec.md R71). -/
  | edgeA (s : Snapshot)
  /-- `EDGE_B(s)` (40_qdec.md R72). -/
  | edgeB (s : Snapshot)
  /-- `NOP` (30_encoding.md R54). -/
  | nop (ignored : BitVec 32)
  /-- `INIT` (41_ddsser.md R94). -/
  | init (ignored : BitVec 32)
  /-- `LOAD(f)` (41_ddsser.md R95). -/
  | load (f : Hertz)
  /-- `STEP.NONE`, step code 0b00 (30_encoding.md R59). -/
  | stepNone
  /-- `STEP.INC`, step code 0b01 (30_encoding.md R59). -/
  | stepInc
  /-- `STEP.DEC`, step code 0b11 (30_encoding.md R59). -/
  | stepDec
  /-- `FRAME`, the frame `{CTRL_BYTE, w}` (30_encoding.md R56). -/
  | frame (w : TuningWord)
  /-- `D0`, `PinWrite(DATA, 0)` (30_encoding.md R60). -/
  | d0
  /-- `D1`, `PinWrite(DATA, 1)`. -/
  | d1
  /-- `C0`, `PinWrite(CLK, 0)`. -/
  | c0
  /-- `C1`, `PinWrite(CLK, 1)`. -/
  | c1
  /-- `U0`, `PinWrite(FQ_UD, 0)`. -/
  | u0
  /-- `U1`, `PinWrite(FQ_UD, 1)`. -/
  | u1
  /-- `X0`, `PinWrite(RESET, 0)`. -/
  | x0
  /-- `X1`, `PinWrite(RESET, 1)`. -/
  | x1
  deriving DecidableEq, Repr

/-- The format whose word an instruction is (30_encoding.md R50; spec/opcode_table.json `format`). -/
def Instr.format : Instr → Format
  | .edgeA _ | .edgeB _ => .qe
  | .nop _ | .init _ | .load _ => .sc
  | .stepNone | .stepInc | .stepDec => .so
  | .frame _ => .f40
  | .d0 | .d1 | .c0 | .c1 | .u0 | .u1 | .x0 | .x1 => .pw

end Sys2Proof
end

