-- ==== Sys2Proof/WellFormed.lean ====
section
/-! DEFINITION. Well-formed instructions: those whose operands the spec admits (30_encoding.md R55, R61). The operand
types already bound every field, so the one check left is LOAD's range (41_ddsser.md R92). -/

namespace Sys2Proof

/-- The range check of `LOAD` (30_encoding.md R55 (b), 41_ddsser.md R92): the tuning word fits 32 bits. -/
def Hertz.inRange (f : Hertz) : Bool := decide (f.toNat ≤ Config.freqMaxHz)

/-- An instruction whose operands the spec admits. -/
def Instr.wellFormed : Instr → Bool
  | .load f => Hertz.inRange f
  | .edgeA _ | .edgeB _ | .nop _ | .init _ => true
  | .stepNone | .stepInc | .stepDec | .frame _ => true
  | .d0 | .d1 | .c0 | .c1 | .u0 | .u1 | .x0 | .x1 => true

end Sys2Proof
end

