-- ==== Sys2Proof/Decode.lean ====
section
/-! DEFINITION. The decoders of the five formats, total on every word, then the encoder (30_encoding.md R50 to R60,
spec/opcode_table.json). A word is a number whose bit 0 is its least significant bit: the hardware stores no words, so
there is no byte order to decide (20_memory.md R30). The format is known from the port the word is on (R50), never from
the word. -/

namespace Sys2Proof

/-- The width of a format's words in bits (30_encoding.md R50). -/
def Format.width : Format → Nat
  | .qe => 3
  | .sc => 34
  | .so => 2
  | .f40 => Config.frameBits
  | .pw => 3

/-- Why a word is no instruction. -/
inductive DecodeError where
  /-- The number has bits above its format's width (30_encoding.md R50). -/
  | tooWide
  /-- An SC word with `cmd` = 0b11 (30_encoding.md R55 (a)). -/
  | reservedCommand
  /-- The step code 0b10, never produced (30_encoding.md R55 (d)). -/
  | stepCodeNeverProduced
  /-- A frame whose control byte is not zero (30_encoding.md R58). -/
  | controlByteNotZero
  deriving DecidableEq, Repr

/-- Format QE: bit 2 the line, bits 1:0 the snapshot (30_encoding.md R51, R52). -/
def decodeQE (e : BitVec 3) : Instr :=
  let s : Snapshot := e.extractLsb' 0 2
  if e.getLsbD 2 then .edgeB s else .edgeA s

/-- Format SC: bits 33:32 the command, bits 31:0 the operand (30_encoding.md R53, R54, R55). -/
def decodeSC (c : BitVec 34) : Except DecodeError Instr :=
  let cmd := c.extractLsb' 32 2
  let f := c.extractLsb' 0 32
  if cmd = 0b00#2 then .ok (.nop f)
  else if cmd = 0b01#2 then .ok (.init f)
  else if cmd = 0b10#2 then .ok (.load f)
  else .error .reservedCommand

/-- Format SO (30_encoding.md R59). -/
def decodeSO (v : BitVec 2) : Except DecodeError Instr :=
  if v = 0b00#2 then .ok .stepNone
  else if v = 0b01#2 then .ok .stepInc
  else if v = 0b11#2 then .ok .stepDec
  else .error .stepCodeNeverProduced

/-- Format F40: bits 39:32 the control byte, bits 31:0 the tuning word (30_encoding.md R56, R58). -/
def decodeF40 (v : Frame) : Except DecodeError Instr :=
  if v.extractLsb' Config.wordBits 8 = Config.ctrlByte then .ok (.frame (v.extractLsb' 0 Config.wordBits))
  else .error .controlByteNotZero

/-- The pin-write code of a line and a level (30_encoding.md R60). -/
def pinCode : OutLine → Level → Instr
  | .data, false => .d0
  | .data, true => .d1
  | .clk, false => .c0
  | .clk, true => .c1
  | .fqUd, false => .u0
  | .fqUd, true => .u1
  | .reset, false => .x0
  | .reset, true => .x1

/-- The line that a PW word names in `p[2:1]` (30_encoding.md R60). -/
def pinLine (l : BitVec 2) : OutLine :=
  if l = 0b00#2 then .data
  else if l = 0b01#2 then .clk
  else if l = 0b10#2 then .fqUd
  else .reset

/-- Format PW: bits 2:1 the line, bit 0 the level; all 8 values are entries (30_encoding.md R60). -/
def decodePW (p : BitVec 3) : Instr := pinCode (pinLine (p.extractLsb' 1 2)) (p.getLsbD 0)

/-- The decoder: any number on any port is an instruction or is rejected by name. -/
def decode (fmt : Format) (w : Nat) : Except DecodeError Instr :=
  if w < 2 ^ fmt.width then
    match fmt with
    | .qe => .ok (decodeQE (BitVec.ofNat 3 w))
    | .sc => decodeSC (BitVec.ofNat 34 w)
    | .so => decodeSO (BitVec.ofNat 2 w)
    | .f40 => decodeF40 (BitVec.ofNat Config.frameBits w)
    | .pw => .ok (decodePW (BitVec.ofNat 3 w))
  else .error .tooWide

/-- The encoder: the word of an instruction, in its own format (30_encoding.md R52, R54, R56, R59, R60). -/
def encode : Instr → Nat
  | .edgeA s => s.toNat
  | .edgeB s => 2 ^ 2 + s.toNat
  | .nop f => f.toNat
  | .init f => 2 ^ 32 + f.toNat
  | .load f => 2 * 2 ^ 32 + f.toNat
  | .stepNone => 0b00
  | .stepInc => 0b01
  | .stepDec => 0b11
  | .frame w => Config.ctrlByte.toNat * 2 ^ Config.wordBits + w.toNat
  | .d0 => 0b000
  | .d1 => 0b001
  | .c0 => 0b010
  | .c1 => 0b011
  | .u0 => 0b100
  | .u1 => 0b101
  | .x0 => 0b110
  | .x1 => 0b111

/-- The input port a word of `nbits` bits (whole bytes) belongs to: one byte holds a QE word, five hold an SC word.
DESIGN CHOICE (log 2): output codes share their words with input operations and enter at no port. -/
def portFormat (nbits : Nat) : Format := if nbits ≤ 8 then .qe else .sc

/-- The instruction the decoder reads from a table word of `nbits` bits, presented at an input port (log 2). A word with
bits above its format's width, which the spec does not have, is none: DESIGN CHOICE (log 2). -/
def decodeTableWord (nbits w : Nat) : Option Instr :=
  match decode (portFormat nbits) w with
  | .ok i => some i
  | .error _ => none

end Sys2Proof
end

