-- ==== Sys2Proof/Machine/Parts.lean ====
section
/-! DEFINITION. The parts of the state, as plain data: QDEC, DDSSER, the reference receiver, the environment, and the
events that say what happens next (10_state.md R11 to R23), each part with its value after reset (R24,
70_reset_and_hazards.md R170, R171). -/

namespace Sys2Proof.Machine

open Sys2Proof

/-- The position counter's value with its width `POS_WIDTH` (10_state.md R14; the width is OPEN, log 8). -/
structure PosCounter where
  width : Nat
  value : BitVec width
  deriving DecidableEq, Repr

/-- QDEC (10_state.md R11 to R15, R23; 40_qdec.md R70). -/
structure Qdec where
  /-- `expectA` (R11). -/
  expectA : Bool
  /-- `expectB` (R12). -/
  expectB : Bool
  /-- `snap` (R13). -/
  snap : Snapshot
  /-- `pos` (R14). -/
  pos : PosCounter
  /-- The `STEP[1:0]` port (30_encoding.md R59). -/
  stepOut : BitVec 2
  /-- `pendA` (R15). -/
  pendA : Bool
  /-- `pendB` (R15). -/
  pendB : Bool
  /-- The step log, oldest first (R23, a record only). -/
  stepLog : List StepEvent
  deriving DecidableEq, Repr

/-- The sequencer's place (10_state.md R17): the next micro-step of the command is number `m`. -/
inductive Seq where
  | idle
  | init (m : Fin 4)
  | load (m : Fin 122)
  deriving DecidableEq, Repr

/-- DDSSER (10_state.md R16 to R18, R23). -/
structure Ddsser where
  /-- The level driven on `DATA` (R16). -/
  data : Level
  /-- The level driven on `CLK` (R16). -/
  clk : Level
  /-- The level driven on `FQ_UD` (R16). -/
  fqUd : Level
  /-- The level driven on `RESET`, the line to the device (R16). -/
  reset : Level
  /-- `seq` (R17). -/
  seq : Seq
  /-- `shreg` (R18). -/
  shreg : Frame
  /-- The output trace, oldest first (R23, 20_memory.md R32). -/
  trace : List PinEntry
  deriving DecidableEq, Repr

/-- The reference receiver (10_state.md R21). -/
structure Receiver where
  stage : Frame
  cnt : Nat
  committed : Option Frame
  deriving DecidableEq, Repr

/-- The mode of the tuning state machine (42_tuning_context.md R123). -/
inductive Mode where
  | primary
  | offsetExciter
  deriving DecidableEq, Repr

/-- TuningState, frequencies in whole kilohertz (42_tuning_context.md R124, R137). -/
structure TuningState where
  band : Band
  mode : Mode
  display : Nat
  min : Nat
  max : Nat
  deriving DecidableEq, Repr

/-- What the loop hands to the display sink (42_tuning_context.md R134). -/
structure DisplayItems where
  band : Band
  mode : Mode
  display : Nat
  translated : Option Nat
  deriving DecidableEq, Repr

/-- Where the control loop stands when it is not inside the driver (42_tuning_context.md R131, 70_reset_and_hazards.md
R173): `boot` before INIT, `recommit` owing the LOAD that follows a mutation, `poll` looking at its inputs. -/
inductive LoopPhase where
  | boot
  | recommit
  | poll
  deriving DecidableEq, Repr

/-- The environment (10_state.md R22, R23; 42_tuning_context.md R124, R131 to R135). -/
structure Environment where
  /-- The level of `ENC_A` (20_memory.md R37). -/
  encA : Level
  /-- The level of `ENC_B` (20_memory.md R37). -/
  encB : Level
  /-- A band-button press the loop has not acted on (42_tuning_context.md R133). -/
  bandButton : Bool
  /-- A mode-button press the loop has not acted on (42_tuning_context.md R133). -/
  modeButton : Bool
  tuning : TuningState
  phase : LoopPhase
  /-- The value of `pos` the loop last acted on (42_tuning_context.md R135). -/
  lastPos : PosCounter
  /-- The `apply_step` calls left of the difference read from `pos` (42_tuning_context.md R135). -/
  owed : Int
  /-- The items last handed to the display sink (42_tuning_context.md R134). -/
  shown : Option DisplayItems
  deriving DecidableEq, Repr

/-- The two buttons (42_tuning_context.md R133). -/
inductive Button where
  | band
  | mode
  deriving DecidableEq, Repr

/-- The environment's calls (42_tuning_context.md R126 to R128). -/
inductive Call where
  | applyStep (e : StepEvent)
  | changeBand
  | changeMode
  deriving DecidableEq, Repr

/-- The input the polling loop looks at next (42_tuning_context.md R131, R133, R135). -/
inductive Look where
  | position
  | bandButton
  | modeButton
  deriving DecidableEq, Repr

/-- What happens next: one atomic step of one agent (00_scope.md R6, 20_memory.md R40). There is no event for what
70_reset_and_hazards.md R184 says the environment never does. -/
inductive Event where
  /-- The environment presents a QE word at the event level (30_encoding.md R51, 40_qdec.md R70). -/
  | qe (w : BitVec 3)
  /-- The environment presents an SC word on the command port (30_encoding.md R53). -/
  | sc (w : BitVec 34)
  /-- The environment sets the levels of `ENC_A` and `ENC_B` (40_qdec.md R76, 70_reset_and_hazards.md R184). -/
  | lines (a b : Level)
  /-- QDEC services line A's pending notification (40_qdec.md R77). -/
  | serviceA
  /-- QDEC services line B's pending notification (40_qdec.md R77). -/
  | serviceB
  /-- DDSSER takes its next micro-step (41_ddsser.md R97). -/
  | micro
  /-- The test bench's `RUN`: micro-steps until `seq = Idle` (30_encoding.md R62). -/
  | run
  /-- The block's reset is applied (`true`) or ends (`false`) (70_reset_and_hazards.md R170). -/
  | blockReset (applied : Bool)
  /-- A button is pressed (42_tuning_context.md R133). -/
  | press (b : Button)
  /-- A button is let go before the loop has looked at it (42_tuning_context.md R133). -/
  | release (b : Button)
  /-- The main loop calls the tuning state machine (42_tuning_context.md R126 to R128). -/
  | call (c : Call)
  /-- The control loop takes its next action (42_tuning_context.md R131). -/
  | loop (l : Look)
  deriving DecidableEq, Repr

/-- `pos` at zero, of the open width (10_state.md R24; log 8). -/
def PosCounter.zero : PosCounter := { width := Config.posWidth, value := 0 }

/-- QDEC after the block's reset (10_state.md R24, 70_reset_and_hazards.md R170); `STEP` is 0b00 (log 5). The position
counter of the machine that is reset is set to zero at its own width. -/
def Qdec.afterReset (width : Nat) : Qdec where
  expectA := false
  expectB := false
  snap := 0b00#2
  pos := { width := width, value := 0 }
  stepOut := 0b00#2
  pendA := false
  pendB := false
  stepLog := []

/-- DDSSER after the block's reset (10_state.md R24, 70_reset_and_hazards.md R170). -/
def Ddsser.afterReset : Ddsser where
  data := false
  clk := false
  fqUd := false
  reset := false
  seq := .idle
  shreg := 0
  trace := []

/-- The receiver at its start (10_state.md R21); `stage` is unspecified there, DESIGN CHOICE 0 (log 7). -/
def Receiver.start : Receiver where
  stage := 0
  cnt := 0
  committed := none

/-- TuningState at its start (42_tuning_context.md R125, 70_reset_and_hazards.md R171). -/
def TuningState.start : TuningState where
  band := .m20
  mode := .primary
  display := 14000
  min := 14000
  max := 14350

/-- The environment at its start (R171); the encoder lines idle high (log 6), the rest is log 18, 19, 25. -/
def Environment.start : Environment where
  encA := true
  encB := true
  bandButton := false
  modeButton := false
  tuning := .start
  phase := .boot
  lastPos := .zero
  owed := 0
  shown := none

end Sys2Proof.Machine
end

