-- ==== Sys2Proof/Machine/State.lean ====
section
/-! DEFINITION. The state: everything the spec gives the machine (10_state.md R11 to R24), made of the parts of
Machine/Parts.lean, the reasons a step can stop, and the state after reset (R24, 70_reset_and_hazards.md R170, R171). -/

namespace Sys2Proof.Machine

open Sys2Proof

/-- The machine. `inputs` is what the environment and the schedule supply, in order (log 1); `draws` counts the uses of
the free value `Config.serviceAFirst` (log 11, 26). -/
structure State where
  params : Params
  /-- The block's reset input is applied (70_reset_and_hazards.md R170; log 20). -/
  inReset : Bool
  inputs : List Event
  draws : Nat
  qdec : Qdec
  ser : Ddsser
  rx : Receiver
  env : Environment
  deriving DecidableEq, Repr

/-- The block raises no exception and records no fault (60_exceptions.md R150, R158), so no step stops with one. -/
inductive Fault where
  deriving DecidableEq, Repr

/-- Why a step has no meaning under the spec (00_scope.md section 6, `refuse`). Every refusal is safe: nothing is claimed
of the run after it. -/
inductive Refusal where
  /-- Raised by `exec` for an instruction that has no meaning yet (safe); no arm does so. -/
  | notModelled (mnemonic : String)
  /-- Raised by `step` for an SC word with `cmd` = 0b11 (30_encoding.md R55 (a)); safe. -/
  | reservedCommand
  /-- Raised by LOAD for `f > FREQ_MAX_HZ` (30_encoding.md R55 (b), 41_ddsser.md R92); safe. -/
  | frequencyOutOfRange
  /-- Raised by INIT, LOAD and FRAME while `BUSY` = 1 (30_encoding.md R55 (c), 41_ddsser.md R98); safe. -/
  | commandWhileBusy
  /-- Raised by an environment call while the main loop is inside the driver, where "a mutation never happens"
  (42_tuning_context.md R131); safe (log 14). -/
  | callInsideDriver
  deriving DecidableEq, Repr

/-- The machine right after reset, with nothing supplied yet (10_state.md R24, 70_reset_and_hazards.md R170, R171). -/
def State.reset : State where
  params := .document
  inReset := false
  inputs := []
  draws := 0
  qdec := .afterReset Config.posWidth
  ser := .afterReset
  rx := .start
  env := .start

end Sys2Proof.Machine
end

