-- ==== Sys2Proof/Machine/Operands.lean ====
section
/-! DEFINITION. The operands and values the operations compute with: the snapshot of two levels, the step code, the
position counter's arithmetic, the tuning word and the frame (30_encoding.md R59, R61; 10_state.md R14; 41_ddsser.md
R91, R93). -/

namespace Sys2Proof.Machine

open Sys2Proof

/-- The snapshot `{A, B}` of two levels (20_memory.md R31, 10_state.md R13). -/
def snapshotOf (a b : Level) : Snapshot := BitVec.ofBool a ++ BitVec.ofBool b

/-- The SO code of a step event (30_encoding.md R59). -/
def stepCode : StepEvent → BitVec 2
  | .inc => 0b01#2
  | .dec => 0b11#2

/-- The sign of a step event (00_scope.md section 7). -/
def stepValue : StepEvent → Int
  | .inc => 1
  | .dec => -1

/-- The step event of a sign: used for the sign of a difference of `pos` (42_tuning_context.md R135). -/
def stepOfSign (d : Int) : StepEvent := if 0 ≤ d then .inc else .dec

/-- `pos + d` modulo `2^POS_WIDTH` (10_state.md R14). -/
def posAdd (p : PosCounter) (d : Int) : PosCounter :=
  { width := p.width, value := p.value + BitVec.ofInt p.width d }

/-- `p - q` modulo `2^POS_WIDTH` at `p`'s width, read as two's complement (10_state.md R14, 42_tuning_context.md R135). -/
def posDifference (p q : PosCounter) : Int :=
  (p.value - BitVec.ofNat p.width q.value.toNat).toInt

/-- `round(f * 2^32 / REF_CLK_HZ)` exactly: half of the clock is added before the division (41_ddsser.md R91). -/
def tuningNumber (f : Nat) : Nat :=
  (f * 2 ^ Config.wordBits + Config.refClkHz / 2) / Config.refClkHz

/-- `W(f)` (41_ddsser.md R91), used only where `f ≤ FREQ_MAX_HZ`, where the number fits 32 bits (R92). -/
def tuningWord (f : Nat) : TuningWord := BitVec.ofNat Config.wordBits (tuningNumber f)

/-- The frame `{ CTRL_BYTE, w }` (41_ddsser.md R93, 30_encoding.md R56). -/
def frameOf (w : TuningWord) : Frame := Config.ctrlByte ++ w

/-- The register after a bit was shifted in at bit 39 (41_ddsser.md R109). -/
def shiftIn (bit : Level) (stage : Frame) : Frame := BitVec.cons bit (stage.extractLsb' 1 39)

/-- The output frequency in hertz that a committed value stands for, when its control byte is zero (41_ddsser.md R111). -/
def outputFrequency (c : Frame) : Option ℚ :=
  if c.extractLsb' Config.wordBits 8 = Config.ctrlByte then
    some (((c.extractLsb' 0 Config.wordBits).toNat * Config.refClkHz : Nat) / (2 ^ Config.wordBits : Nat))
  else none

end Sys2Proof.Machine
end

