-- ==== Sys2Proof/Machine/Flags.lean ====
section
/-! DEFINITION. The expectation flags: the tests of the two EDGE operations and what each branch does to the flags
(40_qdec.md R71 to R73). -/

namespace Sys2Proof.Machine

open Sys2Proof

/-- The branch an EDGE operation takes (40_qdec.md R75, last column). -/
inductive EdgeBranch where
  | emit
  | arm
  | none
  deriving DecidableEq, Repr

/-- The tests of an EDGE operation, in the order written: the detent with the operation's own flag set, else the
operation's arming literal (40_qdec.md R73). -/
def edgeBranch (s : Snapshot) (flag : Bool) (armLiteral : Snapshot) : EdgeBranch :=
  if s = Config.detent ∧ flag = true then .emit
  else if s = armLiteral then .arm
  else .none

/-- Both expectation flags cleared, as every operation that emits a step leaves them (10_state.md R11, R12). -/
def clearFlags (q : Qdec) : Qdec := { q with expectA := false, expectB := false }

/-- `expectB <- 1`, the arming of EDGE_A (40_qdec.md R71). -/
def armExpectB (q : Qdec) : Qdec := { q with expectB := true }

/-- `expectA <- 1`, the arming of EDGE_B (40_qdec.md R72). -/
def armExpectA (q : Qdec) : Qdec := { q with expectA := true }

/-- A rising edge of a line sets its pending bit, and nothing else does (40_qdec.md R76, R79), while the notifications are
live, that is while reset is not applied (70_reset_and_hazards.md R170). -/
def captureEdge (live pending old new : Bool) : Bool := pending || (live && !old && new)

end Sys2Proof.Machine
end

