-- ==== Sys2Proof/Machine/Ops.lean ====
section
/-! DEFINITION. The shared operations: driving a line, the receiver's reaction, delivering a step code, accepting a
command, taking a notification, the block's reset (00_scope.md section 6; 20_memory.md R31 to R33; 40_qdec.md R74, R77;
41_ddsser.md R96, R108 to R110; 70_reset_and_hazards.md R170). -/

namespace Sys2Proof.Machine

open Sys2Proof

/-- The answers of a meaning. -/
abbrev Answer := Host.Outcome State Fault Refusal

/-- Go on from a next state with a further change of it. -/
def onNext (o : Answer) (g : State → State) : Answer :=
  match o with
  | .next s => .next (g s)
  | .fault r => .fault r
  | .refused r => .refused r

/-! ### DDSSER's lines and the receiver -/

/-- The level DDSSER drives on a line (10_state.md R16). -/
def lineLevel (d : Ddsser) : OutLine → Level
  | .data => d.data
  | .clk => d.clk
  | .fqUd => d.fqUd
  | .reset => d.reset

/-- Drive one line to a level (10_state.md R16). -/
def setLine (d : Ddsser) (l : OutLine) (v : Level) : Ddsser :=
  match l with
  | .data => { d with data := v }
  | .clk => { d with clk := v }
  | .fqUd => { d with fqUd := v }
  | .reset => { d with reset := v }

/-- `PinWrite(line, v)` in DDSSER: the level, and one entry of the output trace (20_memory.md R32). -/
def driveLine (d : Ddsser) (e : PinEntry) : Ddsser :=
  { setLine d e.line e.level with trace := d.trace ++ [e] }

/-- A rising edge of `CLK` at the receiver (41_ddsser.md R109). -/
def clockIn (bit : Level) (r : Receiver) : Receiver :=
  { r with stage := shiftIn bit r.stage, cnt := min (r.cnt + 1) Config.frameBits }

/-- A rising edge of `FQ_UD` at the receiver (41_ddsser.md R110). -/
def commit (r : Receiver) : Receiver :=
  { r with committed := if r.cnt = Config.frameBits then some r.stage else none }

/-- The receiver's reaction to a trace entry, with the levels the lines had before it (41_ddsser.md R108). -/
def observe (before : Ddsser) (e : PinEntry) (r : Receiver) : Receiver :=
  match e.line, e.level with
  | .clk, true => if before.clk then r else clockIn before.data r
  | .fqUd, true => if before.fqUd then r else commit r
  | _, _ => r

/-- `PinWrite(line, v)`: the line is driven, the write recorded, and the receiver reacts (20_memory.md R32,
41_ddsser.md R108; log 23). -/
def pinWrite (e : PinEntry) (s : State) : State :=
  { s with ser := driveLine s.ser e, rx := observe s.ser e s.rx }

/-! ### DDSSER's commands -/

/-- `BUSY` (10_state.md R19). -/
def State.busy (s : State) : Bool := decide (s.ser.seq ≠ .idle)

/-- Accept a command that writes no pin: only the sequencer's start changes (41_ddsser.md R96), and only when
DDSSER is idle (R98). -/
def accept (start : Ddsser → Ddsser) (s : State) : Answer :=
  if s.busy then .refused .commandWhileBusy
  else .next { s with ser := start s.ser }

/-- `seq <- Init(0)` (41_ddsser.md R96). -/
def beginInit (d : Ddsser) : Ddsser := { d with seq := .init 0 }

/-- `shreg <- {CTRL_BYTE, w}`, `seq <- Load(0)` (41_ddsser.md R93, R96). -/
def beginFrame (w : TuningWord) (d : Ddsser) : Ddsser :=
  { d with shreg := frameOf w, seq := .load 0 }

/-- Accept `LOAD(f)`: busy and out of range are refused, else the frame of `W(f)` begins (41_ddsser.md R92, R96, R98). -/
def acceptLoad (f : Nat) (s : State) : Answer :=
  if s.busy then .refused .commandWhileBusy
  else if f ≤ Config.freqMaxHz then accept (beginFrame (tuningWord f)) s
  else .refused .frequencyOutOfRange

/-! ### QDEC's steps -/

/-- The step output when no step is emitted: `STEP <- 0b00` (30_encoding.md R59). -/
def noStep (q : Qdec) : Qdec := { q with stepOut := 0b00#2 }

/-- `emit Step(v)` with all that the same atomic operation does: the code on `STEP`, the step logged, both flags
cleared and `pos` moved (40_qdec.md R74; 10_state.md R11, R12, R14). -/
def deliverStep (hasPos : Bool) (e : StepEvent) (q : Qdec) : Qdec :=
  { clearFlags q with
    stepOut := stepCode e
    stepLog := q.stepLog ++ [e]
    pos := if hasPos then posAdd q.pos (stepValue e) else q.pos }

/-- The body of an EDGE operation once its branch is known (40_qdec.md R71 to R73). -/
def edgeBody (hasPos : Bool) (b : EdgeBranch) (e : StepEvent) (arm : Qdec → Qdec) (q : Qdec) : Qdec :=
  match b with
  | .emit => deliverStep hasPos e q
  | .arm => noStep (arm q)
  | .none => noStep q

/-- Change QDEC and nothing else: the two units share no state (20_memory.md R40). -/
def updateQdec (g : Qdec → Qdec) (s : State) : State := { s with qdec := g s.qdec }

/-! ### The encoder lines and the notifications -/

/-- `Snapshot()`: both encoder lines at one instant (20_memory.md R31). -/
def State.snapshot (s : State) : Snapshot := snapshotOf s.env.encA s.env.encB

/-- The environment sets the lines' levels; rising edges are captured (40_qdec.md R76, R79), but not during reset
(70_reset_and_hazards.md R170). -/
def setLines (a b : Level) (s : State) : State :=
  { s with
    qdec := { s.qdec with
      pendA := captureEdge (!s.inReset) s.qdec.pendA s.env.encA a
      pendB := captureEdge (!s.inReset) s.qdec.pendB s.env.encB b }
    env := { s.env with encA := a, encB := b } }

/-- Entry to the service of line A's notification: its pending bit is cleared, nothing is saved and no mode changes
(40_qdec.md R77, 60_exceptions.md R154). -/
def takeA (s : State) : State := updateQdec (fun q => { q with pendA := false }) s

/-- Entry to the service of line B's notification (40_qdec.md R77, 60_exceptions.md R154). -/
def takeB (s : State) : State := updateQdec (fun q => { q with pendB := false }) s

/-! ### Reset -/

/-- Reset is applied: every element of the block takes its value of 10_state.md R24, the logs start empty, and a command
in progress is abandoned; no pin write happens, so the receiver does not react (70_reset_and_hazards.md R170,
41_ddsser.md R107; log 20). -/
def applyReset (s : State) : State :=
  { s with inReset := true, qdec := .afterReset s.qdec.pos.width, ser := .afterReset }

/-- Reset ends: the elements have their values already, and the edge notifications are live again at once
(70_reset_and_hazards.md R170). -/
def endReset (s : State) : State := { s with inReset := false }

/-- An operation presented to the block: during reset every element keeps its reset value, so a legal one has no effect.
DESIGN CHOICE (log 20): the spec does not say what becomes of an operation presented during reset. -/
def heldOff (legal : Bool) (s : State) (o : Answer) : Answer :=
  if s.inReset = true ∧ legal = true then .next s else o

end Sys2Proof.Machine
end

