-- ==== Sys2Proof/Machine/Commands.lean ====
section
/-! DEFINITION. The meanings of DDSSER's commands and of the frame (30_encoding.md R54, R56; 41_ddsser.md R94 to R98). -/

namespace Sys2Proof.Machine

open Sys2Proof

/-- `NOP`: nothing is accepted, no state changes, no trace entry, also while `BUSY` = 1 (30_encoding.md R54). -/
def execNop (_ignored : BitVec 32) (s : State) : Answer := .next s

/-- `INIT`: accepted when idle, the operand bits ignored; its four pin writes are the micro-steps that follow
(41_ddsser.md R94, R96, R97). -/
def execInit (_ignored : BitVec 32) (s : State) : Answer := accept beginInit s

/-- `LOAD(f)`: accepted when idle and in range; its 122 pin writes are the micro-steps that follow (41_ddsser.md R95 to R97). -/
def execLoad (f : Hertz) (s : State) : Answer := acceptLoad f.toNat s

/-- `FRAME`: the frame `{CTRL_BYTE, w}` is held for sending and its sending begins, as LOAD does with `W(f)`
(30_encoding.md R56, 41_ddsser.md R93, R96; log 3). -/
def execFrame (w : TuningWord) (s : State) : Answer := accept (beginFrame w) s

end Sys2Proof.Machine
end

