-- ==== Sys2Proof/Machine/EdgeOps.lean ====
section
/-! DEFINITION. The meanings of QDEC's operations and step codes (40_qdec.md R71, R72; 30_encoding.md R59). -/

namespace Sys2Proof.Machine

open Sys2Proof

/-- QDEC after `EDGE_A(v)`: `snap <- v`, then the first of the two tests that holds (40_qdec.md R71). -/
def edgeAOf (p : Params) (v : Snapshot) (q : Qdec) : Qdec :=
  edgeBody p.hasPos (edgeBranch v q.expectA p.armA) Config.stepA armExpectB { q with snap := v }

/-- QDEC after `EDGE_B(v)`: the roles of the lines and flags exchanged, the sign reversed (40_qdec.md R72). -/
def edgeBOf (p : Params) (v : Snapshot) (q : Qdec) : Qdec :=
  edgeBody p.hasPos (edgeBranch v q.expectB p.armB) Config.stepB armExpectA { q with snap := v }

/-- `EDGE_A(s)` (40_qdec.md R71): total on every snapshot and every flag state (R84). -/
def execEdgeA (v : Snapshot) (s : State) : Answer := .next (updateQdec (edgeAOf s.params v) s)

/-- `EDGE_B(s)` (40_qdec.md R72): total on every snapshot and every flag state (R84). -/
def execEdgeB (v : Snapshot) (s : State) : Answer := .next (updateQdec (edgeBOf s.params v) s)

/-- `STEP.NONE`: the step code of an operation that emits nothing (30_encoding.md R59; log 3). -/
def execStepNone (s : State) : Answer := .next (updateQdec noStep s)

/-- `STEP.INC`: the delivery of Step(+1) (30_encoding.md R59, 40_qdec.md R74; log 3). -/
def execStepInc (s : State) : Answer := .next (updateQdec (deliverStep s.params.hasPos .inc) s)

/-- `STEP.DEC`: the delivery of Step(-1) (30_encoding.md R59, 40_qdec.md R74; log 3). -/
def execStepDec (s : State) : Answer := .next (updateQdec (deliverStep s.params.hasPos .dec) s)

end Sys2Proof.Machine
end

