-- ==== Sys2Proof/Machine/PinWrites.lean ====
section
/-! DEFINITION. The meanings of the eight trace codes: each is the pin write it records (30_encoding.md R60,
20_memory.md R32). -/

namespace Sys2Proof.Machine

open Sys2Proof

/-- `D0`: `PinWrite(DATA, 0)` (30_encoding.md R60). -/
def execD0 (s : State) : Answer := .next (pinWrite ⟨.data, false⟩ s)

/-- `D1`: `PinWrite(DATA, 1)` (30_encoding.md R60). -/
def execD1 (s : State) : Answer := .next (pinWrite ⟨.data, true⟩ s)

/-- `C0`: `PinWrite(CLK, 0)` (30_encoding.md R60). -/
def execC0 (s : State) : Answer := .next (pinWrite ⟨.clk, false⟩ s)

/-- `C1`: `PinWrite(CLK, 1)` (30_encoding.md R60). -/
def execC1 (s : State) : Answer := .next (pinWrite ⟨.clk, true⟩ s)

/-- `U0`: `PinWrite(FQ_UD, 0)` (30_encoding.md R60). -/
def execU0 (s : State) : Answer := .next (pinWrite ⟨.fqUd, false⟩ s)

/-- `U1`: `PinWrite(FQ_UD, 1)` (30_encoding.md R60). -/
def execU1 (s : State) : Answer := .next (pinWrite ⟨.fqUd, true⟩ s)

/-- `X0`: `PinWrite(RESET, 0)` (30_encoding.md R60). -/
def execX0 (s : State) : Answer := .next (pinWrite ⟨.reset, false⟩ s)

/-- `X1`: `PinWrite(RESET, 1)` (30_encoding.md R60). -/
def execX1 (s : State) : Answer := .next (pinWrite ⟨.reset, true⟩ s)

end Sys2Proof.Machine
end

