-- ==== Sys2Proof/Machine/Dispatch.lean ====
section
/-! DEFINITION. The meaning of every instruction, one arm per constructor. -/

namespace Sys2Proof.Machine

open Sys2Proof

def exec (i : Instr) (s : State) : Host.Outcome State Fault Refusal :=
  match i with
  | .edgeA v => Sys2Proof.Machine.execEdgeA v s
  | .edgeB v => Sys2Proof.Machine.execEdgeB v s
  | .nop x => Sys2Proof.Machine.execNop x s
  | .init x => Sys2Proof.Machine.execInit x s
  | .load f => Sys2Proof.Machine.execLoad f s
  | .stepNone => Sys2Proof.Machine.execStepNone s
  | .stepInc => Sys2Proof.Machine.execStepInc s
  | .stepDec => Sys2Proof.Machine.execStepDec s
  | .frame w => Sys2Proof.Machine.execFrame w s
  | .d0 => Sys2Proof.Machine.execD0 s
  | .d1 => Sys2Proof.Machine.execD1 s
  | .c0 => Sys2Proof.Machine.execC0 s
  | .c1 => Sys2Proof.Machine.execC1 s
  | .u0 => Sys2Proof.Machine.execU0 s
  | .u1 => Sys2Proof.Machine.execU1 s
  | .x0 => Sys2Proof.Machine.execX0 s
  | .x1 => Sys2Proof.Machine.execX1 s

end Sys2Proof.Machine
end

