-- ==== Sys2Proof/Machine/Sequencer.lean ====
section
/-! DEFINITION. DDSSER's sequencer: which pin write is due and how `seq` advances (41_ddsser.md R97). -/

namespace Sys2Proof.Machine

open Sys2Proof

/-- The pin write of micro-step `m` of INIT (41_ddsser.md R97). -/
def initWrite : Nat → PinEntry
  | 0 => ⟨.reset, true⟩
  | 1 => ⟨.reset, false⟩
  | 2 => ⟨.clk, true⟩
  | _ => ⟨.clk, false⟩

/-- The pin write of micro-step `m` of LOAD with the frame `F` (41_ddsser.md R97). -/
def loadWrite (F : Frame) (m : Nat) : PinEntry :=
  if m < 120 then
    match m % 3 with
    | 0 => ⟨.data, F.getLsbD (m / 3)⟩
    | 1 => ⟨.clk, true⟩
    | _ => ⟨.clk, false⟩
  else if m = 120 then ⟨.fqUd, true⟩
  else ⟨.fqUd, false⟩

/-- The pin write that is due, if a command is in progress (41_ddsser.md R97). -/
def dueWrite (d : Ddsser) : Option PinEntry :=
  match d.seq with
  | .idle => none
  | .init m => some (initWrite m.val)
  | .load m => some (loadWrite d.shreg m.val)

/-- The sequencer after the micro-step (41_ddsser.md R97). -/
def seqNext : Seq → Seq
  | .idle => .idle
  | .init m => if h : m.val + 1 < 4 then .init ⟨m.val + 1, h⟩ else .idle
  | .load m => if h : m.val + 1 < 122 then .load ⟨m.val + 1, h⟩ else .idle

/-- `seq` advances (41_ddsser.md R97). -/
def advance (d : Ddsser) : Ddsser := { d with seq := seqNext d.seq }

end Sys2Proof.Machine
end

