-- ==== Sys2Proof/Machine/Tuning.lean ====
section
/-! DEFINITION. The environment's software: band cycle, tuning state machine, frequency translator (42_tuning_context.md
R120 to R130). None of it can fail (R138). -/

namespace Sys2Proof.Machine

open Sys2Proof

/-- The cyclic successor, with "no current band" giving 20 m (42_tuning_context.md R120, R122). -/
def nextBand : Option Band → Band
  | none => .m20
  | some .m10 => .m15
  | some .m15 => .m20
  | some .m20 => .m40
  | some .m40 => .m80
  | some .m80 => .m160
  | some .m160 => .m10

/-- Take up a band: its default and bounds (42_tuning_context.md R127, R128). -/
def enterBand (t : BandTable) (b : Band) (m : Mode) : TuningState where
  band := b
  mode := m
  display := (t.row b).dflt
  min := (t.row b).min
  max := (t.row b).max

/-- `change_band()` (42_tuning_context.md R127). -/
def changeBand (t : BandTable) (u : TuningState) : TuningState :=
  enterBand t (nextBand (some u.band)) u.mode

/-- The other mode (42_tuning_context.md R123). -/
def otherMode : Mode → Mode
  | .primary => .offsetExciter
  | .offsetExciter => .primary

/-- `change_mode()` (42_tuning_context.md R128): the band does not advance (90_conflicts.md C6). -/
def changeMode (t : BandTable) (u : TuningState) : TuningState :=
  enterBand t u.band (otherMode u.mode)

/-- `apply_step(step)` (42_tuning_context.md R126): one step size, wrapping at the band's edges. -/
def applyStep (e : StepEvent) (u : TuningState) : TuningState :=
  let d : Int := (u.display : Int) + stepValue e * (Config.stepSizeKHz : Int)
  { u with
    display :=
      if d < (u.min : Int) then u.max
      else if (u.max : Int) < d then u.min
      else d.toNat }

/-- FrequencyTranslator (42_tuning_context.md R129), in kilohertz. -/
def translate (u : TuningState) : Nat :=
  match u.mode with
  | .primary => u.display
  | .offsetExciter => u.display + Config.offsetKHz

/-- The frequency handed to DDSSER, in hertz (42_tuning_context.md R130). -/
def loadFrequency (u : TuningState) : Nat := translate u * 1000

/-- The items owed to the display sink (42_tuning_context.md R134). -/
def displayItems (u : TuningState) : DisplayItems where
  band := u.band
  mode := u.mode
  display := u.display
  translated :=
    match u.mode with
    | .primary => none
    | .offsetExciter => some (translate u)

/-- The mutation a call makes (42_tuning_context.md R126 to R128). -/
def mutation (t : BandTable) : Call → TuningState → TuningState
  | .applyStep e => applyStep e
  | .changeBand => changeBand t
  | .changeMode => changeMode t

/-- Mutate the tuning state; the loop then owes a recommit (42_tuning_context.md R131). Before INIT has been issued the
recommit comes with the start-up anyway (70_reset_and_hazards.md R173). -/
def mutate (c : Call) (s : State) : State :=
  { s with env := { s.env with
      tuning := mutation s.params.bands c s.env.tuning
      phase := if s.env.phase = .boot then .boot else .recommit } }

end Sys2Proof.Machine
end

