-- ==== Sys2Proof/Machine/Moves.lean ====
section
/-! DEFINITION. The moves of the agents: one atomic step each (00_scope.md R6, 20_memory.md R40). A move whose agent has
nothing to do changes nothing (log 13). -/

namespace Sys2Proof.Machine

open Sys2Proof

/-- DDSSER's micro-step: the pin write that is due, then `seq` advances (41_ddsser.md R97). -/
def microMove (s : State) : Answer :=
  match dueWrite s.ser with
  | none => .next s
  | some e => onNext (exec (pinCode e.line e.level) s) (fun t => { t with ser := advance t.ser })

/-- QDEC services line A's notification: `pendA <- 0`, then `EDGE_A(Snapshot())` (40_qdec.md R77). -/
def serviceMoveA (s : State) : Answer :=
  if s.qdec.pendA then exec (.edgeA s.snapshot) (takeA s) else .next s

/-- QDEC services line B's notification: `pendB <- 0`, then `EDGE_B(Snapshot())` (40_qdec.md R77). -/
def serviceMoveB (s : State) : Answer :=
  if s.qdec.pendB then exec (.edgeB s.snapshot) (takeB s) else .next s

/-- A decoded word presented at an input port: the instruction runs, but during reset (log 20). -/
def presentMove (i : Instr) (s : State) : Answer := heldOff i.wellFormed s (exec i s)

/-- An SC word on the command port (30_encoding.md R53 to R55). -/
def commandMove (w : BitVec 34) (s : State) : Answer :=
  match decodeSC w with
  | .ok i => presentMove i s
  | .error _ => .refused .reservedCommand

/-- `RUN`: a micro-step, and `RUN` again while a command is in progress (30_encoding.md R62; log 24). -/
def runMove (s : State) : Answer :=
  if s.busy then
    onNext (microMove s) (fun t => if t.busy then { t with inputs := .run :: t.inputs } else t)
  else .next s

/-- A button's press, or its end before the loop has looked (42_tuning_context.md R133; log 19). -/
def setButton (b : Button) (pressed : Bool) (s : State) : State :=
  match b with
  | .band => { s with env := { s.env with bandButton := pressed } }
  | .mode => { s with env := { s.env with modeButton := pressed } }

/-- The main loop calls the tuning state machine, never while it is inside the driver (42_tuning_context.md R131; log 14, 29). -/
def callMove (c : Call) (s : State) : Answer :=
  if s.busy then .refused .callInsideDriver else .next (mutate c s)

/-- One `apply_step` of those the loop owes (42_tuning_context.md R135). -/
def payStep (s : State) : State :=
  let e := stepOfSign s.env.owed
  mutate (.applyStep e) { s with env := { s.env with owed := s.env.owed - stepValue e } }

/-- The loop reads `pos`: a value other than the one it last acted on is owed unit by unit (42_tuning_context.md R135). -/
def readPosition (s : State) : State :=
  let d := posDifference s.qdec.pos s.env.lastPos
  if s.params.hasPos = true ∧ d ≠ 0 then
    payStep { s with env := { s.env with lastPos := s.qdec.pos, owed := d } }
  else s

/-- The polling loop: an owed `apply_step` first, else the input it looks at (42_tuning_context.md R131, R133, R135). -/
def pollMove (l : Look) (s : State) : State :=
  if s.env.owed ≠ 0 then payStep s
  else
    match l with
    | .position => readPosition s
    | .bandButton =>
      if s.env.bandButton then mutate .changeBand (setButton .band false s) else s
    | .modeButton =>
      if s.env.modeButton then mutate .changeMode (setButton .mode false s) else s

/-- The recommit: translate, serialize, hand the items to the display (42_tuning_context.md R131, R134). -/
def recommitMove (s : State) : Answer :=
  let f := loadFrequency s.env.tuning
  onNext (heldOff (decide (f ≤ Config.freqMaxHz)) s (acceptLoad f s)) (fun t =>
    { t with env := { t.env with phase := .poll, shown := some (displayItems t.env.tuning) } })

/-- The control loop's next action (42_tuning_context.md R131, 70_reset_and_hazards.md R173; log 17). While a command is in
progress the loop is inside the driver and has no action. -/
def loopMove (l : Look) (s : State) : Answer :=
  if s.busy then .next s
  else
    match s.env.phase with
    | .boot =>
      onNext (presentMove (.init 0) s) (fun t => { t with env := { t.env with phase := .recommit } })
    | .recommit => recommitMove s
    | .poll => .next (pollMove l s)

/-- What an event does. DESIGN CHOICE (log 31): a QE word (the event level) may come in a run that also has pin events (the
pin level); it performs its EDGE operation and leaves `pendA` and `pendB` as they are.DESIGN CHOICE (log 33): SC words supplied directly
may come in a run that also has turns of the loop; a supplied INIT or LOAD counts neither as the loop's INIT at boot nor as the
recommit it owes. -/
def eventMove (e : Event) (s : State) : Answer :=
  match e with
  | .qe w => presentMove (decodeQE w) s
  | .sc w => commandMove w s
  | .lines a b => .next (setLines a b s)
  | .serviceA => serviceMoveA s
  | .serviceB => serviceMoveB s
  | .micro => microMove s
  | .run => runMove s
  | .blockReset applied => .next (if applied then applyReset s else endReset s)
  | .press b => .next (setButton b true s)
  | .release b => .next (setButton b false s)
  | .call c => callMove c s
  | .loop l => loopMove l s

/-- What the block does when nothing is supplied (40_qdec.md R77, R78, 60_exceptions.md R153; log 11, 12): a pending
notification is serviced, of two the one the free value names; else a command in progress makes its micro-step; else the
command port reads NOP. -/
def ownMove (s : State) : Answer :=
  if s.qdec.pendA = true ∧ s.qdec.pendB = true then
    let t := { s with draws := s.draws + 1 }
    if Config.serviceAFirst s.draws then serviceMoveA t else serviceMoveB t
  else if s.qdec.pendA then serviceMoveA s
  else if s.qdec.pendB then serviceMoveB s
  else if s.busy then microMove s
  else exec (.nop 0) s

/-- The start of every step: `STEP` reads 0b00 but as the result of the operation just performed (30_encoding.md R59,
40_qdec.md R74; log 5). -/
def quietStep (s : State) : State := updateQdec noStep s

/-- The event a table word stands for at its input port (log 2). DESIGN CHOICE (log 2): the port has its format's width, so bits
above it, which no word of the spec has, are dropped here, where `decodeTableWord` answers none. -/
def portEvent (nbits w : Nat) : Event :=
  match portFormat nbits with
  | .qe => .qe (BitVec.ofNat 3 w)
  | _ => .sc (BitVec.ofNat 34 w)

end Sys2Proof.Machine
end

