-- ==== Sys2Proof/Machine/Step.lean ====
section
/-! DEFINITION. One step of the machine, and how a table word is placed where the next step takes it (00_scope.md R6;
20_memory.md R40; log 1, 2). -/

namespace Sys2Proof.Machine

open Sys2Proof

/-- One atomic step: the next event of the supply, or the block's own move when nothing is supplied. -/
def step (s : State) : Host.Outcome State Fault Refusal :=
  match s.inputs with
  | [] => ownMove (quietStep s)
  | e :: rest => eventMove e (quietStep { s with inputs := rest })

/-- `s` with a table word placed at the head of the supply, so that the very next step takes it. -/
def State.withFetchWord (s : State) (nbits w : Nat) : State :=
  { s with inputs := portEvent nbits w :: s.inputs }

end Sys2Proof.Machine
end

