-- ==== Sys2Proof/Machine/Program.lean ====
section
/-! DEFINITION. Programs: the lines of an operation sequence and the events each stands for (30_encoding.md R62). The text
of a line is notation and is not parsed here. -/

namespace Sys2Proof.Machine

open Sys2Proof

/-- One line of a program (30_encoding.md R62): the operations, the pseudo-operations and directives, and the environment's
calls. -/
inductive ProgramLine where
  /-- `EDGE_A ab` -/
  | edgeA (a b : Level)
  /-- `EDGE_B ab` -/
  | edgeB (a b : Level)
  /-- `INIT` -/
  | init
  /-- `LOAD n`, hertz -/
  | load (n : Nat)
  /-- `NOP` -/
  | nop
  /-- `LOADK n`, kilohertz: `LOAD 1000*n` -/
  | loadK (n : Nat)
  /-- `RUN`: micro-steps until `seq = Idle` -/
  | run
  /-- `STEP n`: `n` micro-steps -/
  | steps (n : Nat)
  /-- `apply_step(+1)`, `apply_step(-1)`, `change_band()`, `change_mode()` -/
  | call (c : Call)
  deriving DecidableEq, Repr

/-- The event that presents an instruction of an input format at its port (30_encoding.md R50). -/
def presentEvent (i : Instr) : Option Event :=
  match i.format with
  | .qe => some (.qe (BitVec.ofNat 3 (encode i)))
  | .sc => some (.sc (BitVec.ofNat 34 (encode i)))
  | .so | .f40 | .pw => none

/-- `LOAD n` as an event: none if `n` does not fit the operand field (30_encoding.md R53). DESIGN CHOICE (log 32): the spec does
not say what such a line means. -/
def loadEvents (n : Nat) : Option (List Event) :=
  if n < 2 ^ Config.freqBits then (presentEvent (.load (BitVec.ofNat Config.freqBits n))).map (fun e => [e]) else none

/-- The events of a line (30_encoding.md R62). -/
def lineEvents : ProgramLine → Option (List Event)
  | .edgeA a b => (presentEvent (.edgeA (snapshotOf a b))).map (fun e => [e])
  | .edgeB a b => (presentEvent (.edgeB (snapshotOf a b))).map (fun e => [e])
  | .init => (presentEvent (.init 0)).map (fun e => [e])
  | .load n => loadEvents n
  | .nop => (presentEvent (.nop 0)).map (fun e => [e])
  | .loadK n => loadEvents (1000 * n)
  | .run => some [.run]
  | .steps n => some (List.replicate n .micro)
  | .call c => some [.call c]

/-- The events of a program, none if a line stands for none. -/
def programEvents : List ProgramLine → Option (List Event)
  | [] => some []
  | l :: rest =>
    match lineEvents l, programEvents rest with
    | some es, some more => some (es ++ more)
    | _, _ => none

/-- The machine with a program supplied (log 1). DESIGN CHOICE (log 32): a program with a line that stands for no event is no
program, and none of its lines is supplied; nothing is refused. -/
def State.withProgram (s : State) (p : List ProgramLine) : State :=
  { s with inputs := s.inputs ++ (programEvents p).getD [] }

end Sys2Proof.Machine
end

