-- ==== Sys2Proof/Safety.lean ====
section
/-! DEFINITION. What counts as a safe run, in the terms the claims use: the environment's contract
(70_reset_and_hazards.md R184), quiescence (R183), and the properties every step keeps (41_ddsser.md R99 to R101;
40_qdec.md R74; 42_tuning_context.md R124). -/

namespace Sys2Proof.Machine

open Sys2Proof

/-! ### The environment's contract -/

/-- The command codes of an SC word (30_encoding.md R53). -/
def commandCode (w : BitVec 34) : Nat := w.toNat / 2 ^ 32

/-- The operand of an SC word (30_encoding.md R53). -/
def commandOperand (w : BitVec 34) : Nat := w.toNat % 2 ^ 32

/-- The event keeps the environment's contract in this state (70_reset_and_hazards.md R184): no reserved command, no command
other than NOP while `BUSY` = 1, `f ≤ FREQ_MAX_HZ`, no mutation while the main loop is inside the driver (R131). A legal command during the
block's reset is no breach (log 20). -/
def keepsContract (e : Event) (s : State) : Prop :=
  match e with
  | .sc w =>
    commandCode w = 0 ∨
      ((s.ser.seq = .idle ∨ s.inReset = true) ∧
        (commandCode w = 1 ∨ (commandCode w = 2 ∧ commandOperand w ≤ Config.freqMaxHz)))
  | .call _ => s.ser.seq = .idle
  | .loop _ =>
    s.ser.seq = .idle → s.env.phase = .recommit →
      loadFrequency s.env.tuning ≤ Config.freqMaxHz
  | .qe _ | .lines _ _ | .serviceA | .serviceB | .micro | .run | .blockReset _
  | .press _ | .release _ => True

/-- The next step is safe: what is supplied next, if anything, keeps the contract. -/
def State.safe (s : State) : Prop := ∀ e rest, s.inputs = e :: rest → keepsContract e s

/-- The block is quiescent (70_reset_and_hazards.md R183). -/
def State.quiescent (s : State) : Prop :=
  s.ser.seq = .idle ∧ s.qdec.pendA = false ∧ s.qdec.pendB = false

/-- While reset is applied every element of the block has its reset value (70_reset_and_hazards.md R170). -/
def State.restsInReset (s : State) : Prop :=
  s.inReset = true → s.qdec = .afterReset s.qdec.pos.width ∧ s.ser = .afterReset

/-! ### DDSSER -/

/-- The trace of INIT: `X1 X0 C1 C0` (41_ddsser.md R99). -/
def initTrace : List PinEntry :=
  [⟨.reset, true⟩, ⟨.reset, false⟩, ⟨.clk, true⟩, ⟨.clk, false⟩]

/-- The trace of a frame: forty groups `D<F[k]> C1 C0`, then `U1 U0` (41_ddsser.md R100). -/
def frameTrace (F : Frame) : List PinEntry :=
  (List.range Config.frameBits).flatMap (fun k => [⟨.data, F.getLsbD k⟩, ⟨.clk, true⟩, ⟨.clk, false⟩])
    ++ [⟨.fqUd, true⟩, ⟨.fqUd, false⟩]

/-- A command that has been performed to its end. -/
inductive Sent where
  | init
  | load (f : Nat)
  deriving DecidableEq, Repr

/-- The command is one DDSSER accepts (41_ddsser.md R92). -/
def Sent.legal : Sent → Prop
  | .init => True
  | .load f => f ≤ Config.freqMaxHz

/-- The trace of a whole command (41_ddsser.md R99, R100). -/
def Sent.trace : Sent → List PinEntry
  | .init => initTrace
  | .load f => frameTrace (frameOf (tuningWord f))

/-- The part of the command in progress that is in the trace already (70_reset_and_hazards.md R183). -/
def partialTrace (d : Ddsser) : List PinEntry :=
  match d.seq with
  | .idle => []
  | .init m => initTrace.take m.val
  | .load m => (frameTrace d.shreg).take m.val

/-- The trace is whole commands followed by the beginning of the one in progress, and a frame in progress is that of a
legal frequency (20_memory.md R35, R38; 41_ddsser.md R99, R100). -/
def TraceOfCommands (d : Ddsser) : Prop :=
  (∃ done : List Sent, (∀ c ∈ done, c.legal) ∧ d.trace = done.flatMap Sent.trace ++ partialTrace d) ∧
  (∀ m, d.seq = .load m → ∃ f ≤ Config.freqMaxHz, d.shreg = frameOf (tuningWord f))

/-- The control byte of the held frame is zero (30_encoding.md R56, R58). -/
def ControlByteZero (d : Ddsser) : Prop := d.shreg.extractLsb' Config.wordBits 8 = Config.ctrlByte

/-- The levels the four lines have at each place of the sequencer: all low at rest, `DATA` the last bit written during a
LOAD, `CLK` high only between the two writes of its pulse (41_ddsser.md R97, R101, R102). -/
def lineAt (F : Frame) (q : Seq) (l : OutLine) : Level :=
  match q, l with
  | .idle, _ => false
  | .init m, .clk => decide (m.val = 3)
  | .init m, .reset => decide (m.val = 1)
  | .init _, _ => false
  | .load m, .data => decide (m.val ≠ 0) && F.getLsbD (min ((m.val - 1) / 3) 39)
  | .load m, .clk => decide (m.val % 3 = 2)
  | .load m, .fqUd => decide (m.val = 121)
  | .load _, .reset => false

/-- Every line has the level its place in the command says. -/
def LinesFollowSequencer (d : Ddsser) : Prop := ∀ l, lineLevel d l = lineAt d.shreg d.seq l

/-- What the serializer's steps keep: the held frame's control byte is zero and the lines follow the sequencer. -/
def SerializerInv (d : Ddsser) : Prop := ControlByteZero d ∧ LinesFollowSequencer d

/-- One pin write and nothing else in DDSSER or QDEC: the line has the level, the write is recorded, every other line and
part is as before (20_memory.md R32). The receiver's reaction is said elsewhere (41_ddsser.md R108). -/
structure PinWritten (e : PinEntry) (s t : State) : Prop where
  trace : t.ser.trace = s.ser.trace ++ [e]
  level : lineLevel t.ser e.line = e.level
  others : ∀ l, l ≠ e.line → lineLevel t.ser l = lineLevel s.ser l
  shreg : t.ser.shreg = s.ser.shreg
  env : t.env = s.env
  params : t.params = s.params
  draws : t.draws = s.draws
  inReset : t.inReset = s.inReset

/-- The rows of the micro-step table: `seq`, the held frame, the pin write, the next `seq` (41_ddsser.md R97). -/
inductive MicroRow : Seq → Frame → PinEntry → Seq → Prop
  | init0 (F : Frame) : MicroRow (.init 0) F ⟨.reset, true⟩ (.init 1)
  | init1 (F : Frame) : MicroRow (.init 1) F ⟨.reset, false⟩ (.init 2)
  | init2 (F : Frame) : MicroRow (.init 2) F ⟨.clk, true⟩ (.init 3)
  | init3 (F : Frame) : MicroRow (.init 3) F ⟨.clk, false⟩ .idle
  | dataBit (F : Frame) (m : Nat) (h : m < 120) (h3 : m % 3 = 0) :
      MicroRow (.load ⟨m, by omega⟩) F ⟨.data, F.getLsbD (m / 3)⟩ (.load ⟨m + 1, by omega⟩)
  | clockHigh (F : Frame) (m : Nat) (h : m < 120) (h3 : m % 3 = 1) :
      MicroRow (.load ⟨m, by omega⟩) F ⟨.clk, true⟩ (.load ⟨m + 1, by omega⟩)
  | clockLow (F : Frame) (m : Nat) (h : m < 120) (h3 : m % 3 = 2) :
      MicroRow (.load ⟨m, by omega⟩) F ⟨.clk, false⟩ (.load ⟨m + 1, by omega⟩)
  | commitHigh (F : Frame) : MicroRow (.load 120) F ⟨.fqUd, true⟩ (.load 121)
  | commitLow (F : Frame) : MicroRow (.load 121) F ⟨.fqUd, false⟩ .idle

/-! ### QDEC -/

/-- The sum of the logged steps. -/
def stepSum (log : List StepEvent) : Int := (log.map stepValue).sum

/-- `pos` is the sum of the emitted steps modulo `2^POS_WIDTH`, and `STEP` is never 0b10 (40_qdec.md R74, 30_encoding.md R59). -/
def DecoderInv (p : Params) (q : Qdec) : Prop :=
  q.stepOut ≠ 0b10#2 ∧
  (p.hasPos = true → q.pos.value = BitVec.ofInt q.pos.width (stepSum q.stepLog))

/-- The document's arming literals (00_scope.md R7): a machine may be instantiated with others (40_qdec.md R82). -/
def Params.literal (p : Params) : Prop := p.armA = 0b01#2 ∧ p.armB = 0b10#2

/-- What an observer of QDEC sees after an operation, the transient `STEP` port and the snapshot left out. -/
def Qdec.lasting (q : Qdec) : Bool × Bool × PosCounter × Bool × Bool × List StepEvent :=
  (q.expectA, q.expectB, q.pos, q.pendA, q.pendB, q.stepLog)

/-- A snapshot in which the line being serviced reads 1 (40_qdec.md R82), for a QE word. -/
def coherent (w : BitVec 3) : Bool := if w.getLsbD 2 then w.getLsbD 0 else w.getLsbD 1

/-- QDEC's state after a list of QE words, performed one after the other (40_qdec.md R70). -/
def afterEdges (s : State) : List (BitVec 3) → State
  | [] => s
  | w :: ws =>
    match exec (decodeQE w) s with
    | .next t => afterEdges t ws
    | _ => s

/-! ### The environment -/

/-- A row meets the table's invariant (42_tuning_context.md R120, R121). -/
def BandRow.ok (r : BandRow) : Prop :=
  r.min ≤ r.dflt ∧ r.dflt ≤ r.max ∧ r.max ≤ Config.bandMaxKHz

/-- Every row does. -/
def BandTable.ok (t : BandTable) : Prop := ∀ b, BandRow.ok (t.row b)

/-- The bounds are those of the current band and the display frequency is within them (42_tuning_context.md R124). -/
def TuningInv (p : Params) (u : TuningState) : Prop :=
  BandTable.ok p.bands ∧ u.min = (p.bands.row u.band).min ∧ u.max = (p.bands.row u.band).max ∧
    u.min ≤ u.display ∧ u.display ≤ u.max

/-! ### Interleaving -/

/-- A move that does not concern DDSSER: an edge event, a change of the encoder lines, a service (20_memory.md R40). -/
def Event.decoderSide : Event → Bool
  | .qe _ | .lines _ _ | .serviceA | .serviceB => true
  | _ => false

/-- DDSSER's own micro-step as a function of DDSSER alone (41_ddsser.md R97, 20_memory.md R40). -/
def microStep (d : Ddsser) : Ddsser :=
  match dueWrite d with
  | none => d
  | some e => advance (driveLine d e)

/-- `k` micro-steps of DDSSER. -/
def microSteps : Nat → Ddsser → Ddsser
  | 0, d => d
  | k + 1, d => microSteps k (microStep d)

end Sys2Proof.Machine
end

