-- ==== Sys2Proof/Certificates/Slice0/Obligations.lean ====
section
/-! DEFINITION. The statements for the provers, from the numbered rules of spec/. -/

open Sys2Proof Sys2Proof.Machine

/-! ### Encodings -/

/-- Every instruction is read back from its word, in its own format (30_encoding.md R50 to R60). -/
def Obligations.DecodingAnEncodedInstructionGivesItBack : Prop :=
  ∀ i : Instr, decode i.format (encode i) = .ok i

/-- A word that decodes is the encoding of the instruction it decodes to: no two words of a format share an instruction
and no bit of a word is dropped (30_encoding.md R50 to R60). -/
def Obligations.ADecodedWordIsItsInstructionsEncoding : Prop :=
  ∀ (fmt : Format) (w : Nat) (i : Instr),
    decode fmt w = .ok i → i.format = fmt ∧ encode i = w

/-- Words written out from the encodings of 30_encoding.md and 95_test_vectors.md decode to what they stand for. -/
def Obligations.SpecWordsDecodeToTheirInstructions : Prop :=
  decode .qe 0b001 = .ok (.edgeA 0b01#2) ∧
  decode .qe 0b110 = .ok (.edgeB 0b10#2) ∧
  decode .sc 0x000000000 = .ok (.nop 0#32) ∧
  decode .sc 0x1DEADBEEF = .ok (.init 0xDEADBEEF#32) ∧
  decode .sc 0x200D59F80 = .ok (.load 14000000#32) ∧
  decode .so 0b11 = .ok .stepDec ∧
  decode .f40 0x001CAC0831 = .ok (.frame 0x1CAC0831#32) ∧
  decode .pw 0b101 = .ok .u1

/-- What no format gives a meaning is rejected by name: the reserved command, the step code 0b10, a frame whose control
byte is not zero, a number too wide for its port (30_encoding.md R50, R55, R58). -/
def Obligations.ReservedWordsAreRejectedByName : Prop :=
  (∀ f : Nat, f < 2 ^ 32 → decode .sc (3 * 2 ^ 32 + f) = .error .reservedCommand) ∧
  decode .so 0b10 = .error .stepCodeNeverProduced ∧
  (∀ w : Nat, 2 ^ 32 ≤ w → w < 2 ^ 40 → decode .f40 w = .error .controlByteNotZero) ∧
  (∀ (fmt : Format) (w : Nat), 2 ^ fmt.width ≤ w → decode fmt w = .error .tooWide)

/-- A step whose next supply is a word runs the instruction the word decodes to, on the state with the word taken and the
`STEP` port quiet; a reserved command word is refused by name. The supply as a list and the quiet port are the model's choices
(log 1, 5), and that a legal word presented during the block's reset has no effect (log 20). -/
def Obligations.AStepRunsTheDecodedInstruction : Prop :=
  ∀ (s : State) (rest : List Event),
    let taken : State := { s with inputs := rest, qdec := { s.qdec with stepOut := 0b00#2 } }
    (∀ (w : BitVec 3) (i : Instr), s.inputs = .qe w :: rest → decode .qe w.toNat = .ok i →
      (s.inReset = false → step s = exec i taken) ∧ (s.inReset = true → step s = .next taken)) ∧
    (∀ (w : BitVec 34) (i : Instr), s.inputs = .sc w :: rest → decode .sc w.toNat = .ok i →
      (s.inReset = false ∨ i.wellFormed = false → step s = exec i taken) ∧
      (s.inReset = true → i.wellFormed = true → step s = .next taken)) ∧
    (∀ (w : BitVec 34) (r : DecodeError), s.inputs = .sc w :: rest → decode .sc w.toNat = .error r →
      step s = .refused .reservedCommand)

/-! ### QDEC -/

/-- `EDGE_A(v)`, on every state and every snapshot: at the detent with `expectA` set emit Step(-1) and clear both flags,
else at the arming literal set `expectB`, else nothing but `snap`; nothing else in the machine changes. The literal is the
document's in the document's configuration (40_qdec.md R71). -/
def Obligations.EdgeADoesWhatItsRuleSays : Prop :=
  (∀ v : Snapshot, decode .qe v.toNat = .ok (.edgeA v)) ∧
  Params.document.armA = 0b01#2 ∧ Params.document.hasPos = true ∧
  ∀ (s : State) (v : Snapshot),
    exec (.edgeA v) s = .next { s with qdec :=
      if v = 0b11#2 ∧ s.qdec.expectA = true then
        { s.qdec with
          snap := v, stepOut := 0b11#2, expectA := false, expectB := false
          pos := if s.params.hasPos then ⟨s.qdec.pos.width, s.qdec.pos.value - 1⟩ else s.qdec.pos
          stepLog := s.qdec.stepLog ++ [.dec] }
      else if v = s.params.armA then { s.qdec with snap := v, stepOut := 0b00#2, expectB := true }
      else { s.qdec with snap := v, stepOut := 0b00#2 } }

/-- `EDGE_B(v)`: the roles of the lines and flags exchanged and the sign reversed (40_qdec.md R72). -/
def Obligations.EdgeBDoesWhatItsRuleSays : Prop :=
  (∀ v : Snapshot, decode .qe (4 + v.toNat) = .ok (.edgeB v)) ∧
  Params.document.armB = 0b10#2 ∧ Params.document.hasPos = true ∧
  ∀ (s : State) (v : Snapshot),
    exec (.edgeB v) s = .next { s with qdec :=
      if v = 0b11#2 ∧ s.qdec.expectB = true then
        { s.qdec with
          snap := v, stepOut := 0b01#2, expectA := false, expectB := false
          pos := if s.params.hasPos then ⟨s.qdec.pos.width, s.qdec.pos.value + 1⟩ else s.qdec.pos
          stepLog := s.qdec.stepLog ++ [.inc] }
      else if v = s.params.armB then { s.qdec with snap := v, stepOut := 0b00#2, expectA := true }
      else { s.qdec with snap := v, stepOut := 0b00#2 } }

/-- The step codes as the delivery of their step: the code on `STEP`, and for a step both flags cleared, `pos` moved by it
and the step logged (30_encoding.md R59, 40_qdec.md R74). That an output code runs as an instruction is the model's choice
(log 3). -/
def Obligations.StepCodesDeliverTheirStep : Prop :=
  ∀ s : State,
    exec .stepNone s = .next { s with qdec := { s.qdec with stepOut := 0b00#2 } } ∧
    exec .stepInc s = .next { s with qdec :=
      { s.qdec with
        stepOut := 0b01#2, expectA := false, expectB := false, stepLog := s.qdec.stepLog ++ [.inc]
        pos := if s.params.hasPos then ⟨s.qdec.pos.width, s.qdec.pos.value + 1⟩ else s.qdec.pos } } ∧
    exec .stepDec s = .next { s with qdec :=
      { s.qdec with
        stepOut := 0b11#2, expectA := false, expectB := false, stepLog := s.qdec.stepLog ++ [.dec]
        pos := if s.params.hasPos then ⟨s.qdec.pos.width, s.qdec.pos.value - 1⟩ else s.qdec.pos } }

/-- Over all instructions: a flag is cleared only by one that emits a step, and every one that emits a step leaves both flags
clear (40_qdec.md R80 (a)). -/
def Obligations.FlagsAreClearedExactlyByEmittedSteps : Prop :=
  ∀ (i : Instr) (s t : State), exec i s = .next t →
    ((s.qdec.expectA = true ∧ t.qdec.expectA = false) ∨
      (s.qdec.expectB = true ∧ t.qdec.expectB = false) → ∃ e, t.qdec.stepLog = s.qdec.stepLog ++ [e]) ∧
    ((∃ e, t.qdec.stepLog = s.qdec.stepLog ++ [e]) →
      t.qdec.expectA = false ∧ t.qdec.expectB = false)

/-- Over all instructions: `expectB` is set only by `EDGE_A(0b01)` and `expectA` only by `EDGE_B(0b10)`, with the document's
literals (40_qdec.md R80 (b)). -/
def Obligations.FlagsAreSetOnlyByArmingOperations : Prop :=
  ∀ (i : Instr) (s t : State), Params.literal s.params → exec i s = .next t →
    (s.qdec.expectB = false → t.qdec.expectB = true → i = .edgeA 0b01#2) ∧
    (s.qdec.expectA = false → t.qdec.expectA = true → i = .edgeB 0b10#2)

/-- From clear flags, a step is emitted only at its own detent edge and only if its arming operation has occurred since the
last emitted step (40_qdec.md R80 (c), (d), (g)). -/
def Obligations.EveryStepIsArmedSinceTheLastOne : Prop :=
  ∀ (s : State) (ws : List (BitVec 3)) (w : BitVec 3), Params.literal s.params →
    s.qdec.expectA = false → s.qdec.expectB = false →
    ((afterEdges s (ws ++ [w])).qdec.stepLog = (afterEdges s ws).qdec.stepLog ++ [.dec] →
      w = 0b011#3 ∧ ∃ us vs, ws = us ++ 0b110#3 :: vs ∧
        (afterEdges s ws).qdec.stepLog = (afterEdges s us).qdec.stepLog) ∧
    ((afterEdges s (ws ++ [w])).qdec.stepLog = (afterEdges s ws).qdec.stepLog ++ [.inc] →
      w = 0b111#3 ∧ ∃ us vs, ws = us ++ 0b001#3 :: vs ∧
        (afterEdges s ws).qdec.stepLog = (afterEdges s us).qdec.stepLog)

/-- Repeating an edge operation at once changes nothing further, from every state and with any arming literals other than
the detent: the bounce rejection (40_qdec.md R80 (e)). -/
def Obligations.ARepeatedEdgeChangesNothingFurther : Prop :=
  ∀ (s : State) (w : BitVec 3), s.params.armA ≠ 0b11#2 → s.params.armB ≠ 0b11#2 →
    (afterEdges s [w, w]).qdec.lasting = (afterEdges s [w]).qdec.lasting

/-- The hazard of the document's literals: from clear flags, a run whose snapshots are all coherent arms nothing, emits
nothing and leaves `pos` where it was (40_qdec.md R82). -/
def Obligations.CoherentSnapshotsNeverEmitAStep : Prop :=
  ∀ (s : State) (ws : List (BitVec 3)), Params.literal s.params →
    s.qdec.expectA = false → s.qdec.expectB = false → (∀ w ∈ ws, coherent w = true) →
    (afterEdges s ws).qdec.lasting = s.qdec.lasting

/-- With the exchanged literals the ideal cycles give Step(+1) and Step(-1) from clear flags (40_qdec.md R82). -/
def Obligations.ExchangedLiteralsDecodeTheIdealCycles : Prop :=
  ∀ s : State, s.params.armA = 0b10#2 → s.params.armB = 0b01#2 →
    s.qdec.expectA = false → s.qdec.expectB = false →
    (afterEdges s [0b010#3, 0b111#3]).qdec.stepLog = s.qdec.stepLog ++ [.inc] ∧
    (afterEdges s [0b101#3, 0b011#3]).qdec.stepLog = s.qdec.stepLog ++ [.dec]

/-- Whatever a step is, when it emits a decrement it was armed by `expectA`, its snapshot is the detent, both flags are clear
after it and the code is on the port; and so for an increment (40_qdec.md R74, R80). -/
def Obligations.AStepEmitsOnlyAtAnArmedDetent : Prop :=
  ∀ s t : State, step s = .next t →
    (t.qdec.stepLog = s.qdec.stepLog ++ [.dec] →
      s.qdec.expectA = true ∧ t.qdec.snap = 0b11#2 ∧ t.qdec.expectA = false ∧
        t.qdec.expectB = false ∧ t.qdec.stepOut = 0b11#2) ∧
    (t.qdec.stepLog = s.qdec.stepLog ++ [.inc] →
      s.qdec.expectB = true ∧ t.qdec.snap = 0b11#2 ∧ t.qdec.expectA = false ∧
        t.qdec.expectB = false ∧ t.qdec.stepOut = 0b01#2)

/-- Every step keeps: `pos` is the sum of the emitted steps modulo `2^POS_WIDTH`, and `STEP` is never 0b10
(40_qdec.md R74, 30_encoding.md R59). -/
def Obligations.EveryStepKeepsPosTheSumOfSteps : Prop :=
  ∀ s t : State, DecoderInv s.params s.qdec → step s = .next t → DecoderInv t.params t.qdec

/-! ### From pins to operations -/

/-- Setting the encoder lines captures each rising edge in its pending bit, merges it with one outstanding, and does nothing
else: no falling edge and no steady level does anything (40_qdec.md R76, R79). During the block's reset no edge is captured
(70_reset_and_hazards.md R170). -/
def Obligations.RisingEdgesAreCaptured : Prop :=
  ∀ (s : State) (a b : Level) (rest : List Event), s.inputs = .lines a b :: rest →
    ∃ t, step s = .next t ∧
      t.qdec = { s.qdec with
        stepOut := t.qdec.stepOut
        pendA := s.qdec.pendA || (!s.inReset && !s.env.encA && a)
        pendB := s.qdec.pendB || (!s.inReset && !s.env.encB && b) } ∧
      t.env = { s.env with encA := a, encB := b } ∧
      t.ser = s.ser ∧ t.rx = s.rx ∧ t.params = s.params ∧ t.inputs = rest ∧ t.draws = s.draws ∧
      t.inReset = s.inReset

/-- Servicing a pending notification clears its bit and performs the edge operation on the levels the lines have at that
step; nothing is saved (40_qdec.md R77, 60_exceptions.md R154). That a turn with nothing pending passes is the model's
choice (log 13). -/
def Obligations.ServicePerformsTheEdgeOperation : Prop :=
  ∀ (s : State) (rest : List Event),
    (s.inputs = .serviceA :: rest → s.qdec.pendA = true →
      step s = exec (.edgeA (BitVec.ofBool s.env.encA ++ BitVec.ofBool s.env.encB))
        { s with inputs := rest, qdec := { s.qdec with stepOut := 0b00#2, pendA := false } }) ∧
    (s.inputs = .serviceB :: rest → s.qdec.pendB = true →
      step s = exec (.edgeB (BitVec.ofBool s.env.encA ++ BitVec.ofBool s.env.encB))
        { s with inputs := rest, qdec := { s.qdec with stepOut := 0b00#2, pendB := false } }) ∧
    (s.inputs = .serviceA :: rest → s.qdec.pendA = false →
      step s = .next { s with inputs := rest, qdec := { s.qdec with stepOut := 0b00#2 } }) ∧
    (s.inputs = .serviceB :: rest → s.qdec.pendB = false →
      step s = .next { s with inputs := rest, qdec := { s.qdec with stepOut := 0b00#2 } })

/-- Of two pending notifications either may be serviced first, and unless both flags are set both orders leave QDEC the same,
with the document's literals (40_qdec.md R78). -/
def Obligations.BothServiceOrdersAgreeUnlessBothFlagsAreSet : Prop :=
  ∀ s : State, Params.literal s.params → s.qdec.pendA = true → s.qdec.pendB = true →
    (s.qdec.expectA = false ∨ s.qdec.expectB = false) →
    ∃ t u : State,
      core.run 2 { s with inputs := [.serviceA, .serviceB] } = .next t ∧
      core.run 2 { s with inputs := [.serviceB, .serviceA] } = .next u ∧
      t.qdec.lasting = u.qdec.lasting ∧ t.qdec.pendA = false ∧ t.qdec.pendB = false

/-! ### DDSSER's commands -/

/-- Acceptance: INIT and LOAD start the sequencer and write no pin, LOAD latching the frame of its tuning word; NOP changes
nothing, also while a command is in progress (41_ddsser.md R96, 30_encoding.md R54). -/
def Obligations.CommandsAreAcceptedWhenIdle : Prop :=
  (∀ (s : State) (x : BitVec 32), exec (.nop x) s = .next s) ∧
  ∀ s : State, s.ser.seq = .idle →
    (∀ x : BitVec 32, exec (.init x) s = .next { s with ser := { s.ser with seq := .init 0 } }) ∧
    (∀ f : Hertz, f.toNat ≤ 124999999 →
      exec (.load f) s = .next { s with ser := { s.ser with
        shreg := BitVec.ofNat 40 ((f.toNat * 4294967296 + 62500000) / 125000000)
        seq := .load 0 } })

/-- The frame of an idle DDSSER begins: it is held with a zero control byte and `seq` is `Load(0)` (30_encoding.md R56,
41_ddsser.md R93). That an output code runs as an instruction is the model's choice (log 3). -/
def Obligations.AFrameBeginsWhenIdle : Prop :=
  ∀ (s : State) (w : TuningWord), s.ser.seq = .idle →
    exec (.frame w) s = .next { s with ser := { s.ser with shreg := w.setWidth 40, seq := .load 0 } }

/-- A command presented while `BUSY` = 1 and a LOAD above `FREQ_MAX_HZ` are refused by name (41_ddsser.md R92, R98,
30_encoding.md R55). The same for a frame while busy is the model's choice (log 3). -/
def Obligations.CommandsAreRefusedWhenBusyOrOutOfRange : Prop :=
  ∀ s : State,
    (s.ser.seq ≠ .idle →
      (∀ x : BitVec 32, exec (.init x) s = .refused .commandWhileBusy) ∧
      (∀ f : Hertz, exec (.load f) s = .refused .commandWhileBusy) ∧
      (∀ w : TuningWord, exec (.frame w) s = .refused .commandWhileBusy)) ∧
    (s.ser.seq = .idle → ∀ f : Hertz, 124999999 < f.toNat →
      exec (.load f) s = .refused .frequencyOutOfRange)

/-- Each trace code is its pin write: the line has the level, one entry is recorded, and no other line, no other state of the
block, and nothing of the environment changes (20_memory.md R32, 30_encoding.md R60). That a trace code runs as an instruction
is the model's choice (log 3). -/
def Obligations.TraceCodesArePinWrites : Prop :=
  ∀ s : State,
    ∀ ie ∈ [(Instr.d0, PinEntry.mk .data false), (.d1, ⟨.data, true⟩), (.c0, ⟨.clk, false⟩),
      (.c1, ⟨.clk, true⟩), (.u0, ⟨.fqUd, false⟩), (.u1, ⟨.fqUd, true⟩), (.x0, ⟨.reset, false⟩),
      (.x1, ⟨.reset, true⟩)],
      ∃ t, exec ie.1 s = .next t ∧ PinWritten ie.2 s t ∧ t.ser.seq = s.ser.seq ∧
        t.qdec = s.qdec ∧ t.inputs = s.inputs

/-- The receiver acts on two events only: a rising `CLK` shifts `DATA` in at bit 39 and counts to 40, a rising `FQ_UD` commits
what is staged if 40 bits have been seen and nothing otherwise; every other write leaves it alone
(41_ddsser.md R108, R110, and R109's shift). -/
def Obligations.TheReceiverActsOnRisingClkAndFqUdOnly : Prop :=
  ∀ (s t : State) (e : PinEntry), exec (pinCode e.line e.level) s = .next t →
    (e = ⟨.clk, true⟩ ∧ s.ser.clk = false →
      t.rx.stage.getLsbD 39 = s.ser.data ∧
      (∀ k < 39, t.rx.stage.getLsbD k = s.rx.stage.getLsbD (k + 1)) ∧
      t.rx.cnt = min (s.rx.cnt + 1) 40 ∧ t.rx.committed = s.rx.committed) ∧
    (e = ⟨.fqUd, true⟩ ∧ s.ser.fqUd = false →
      t.rx.committed = (if s.rx.cnt = 40 then some s.rx.stage else none) ∧
      t.rx.stage = s.rx.stage ∧ t.rx.cnt = s.rx.cnt) ∧
    (¬(e = ⟨.clk, true⟩ ∧ s.ser.clk = false) → ¬(e = ⟨.fqUd, true⟩ ∧ s.ser.fqUd = false) →
      t.rx = s.rx)

/-- When a command is in progress DDSSER's next step is exactly one pin write, the one the table gives, and `seq` moves to the
table's next place; the table has a row for every place; QDEC and the environment are untouched (41_ddsser.md R97). -/
def Obligations.AMicroStepIsTheTablesPinWrite : Prop :=
  (∀ (q : Seq) (F : Frame), q ≠ .idle → ∃ e q', MicroRow q F e q') ∧
  ∀ (s : State) (rest : List Event) (e : PinEntry) (q : Seq),
    s.inputs = .micro :: rest → MicroRow s.ser.seq s.ser.shreg e q →
    ∃ t, step s = .next t ∧ PinWritten e s t ∧ t.ser.seq = q ∧ t.inputs = rest ∧
      t.qdec.lasting = s.qdec.lasting

/-! ### The tuning word and the frame -/

/-- The tuning word is `f * 2^32 / 125 000 000` rounded to the nearest integer, for every legal `f`: it fits 32 bits, it is
strictly within half a unit (no tie exists), it is the rule's second formula, it is strictly increasing in `f`, and the
rule's values hold (41_ddsser.md R91). -/
def Obligations.TheTuningWordIsTheNearestInteger : Prop :=
  (∀ f : Nat, f ≤ 124999999 →
    (tuningWord f).toNat = (f * 4294967296 + 62500000) / 125000000 ∧
    2 * ((tuningWord f).toNat * 125000000 : Int) - 2 * (f * 4294967296) < 125000000 ∧
    2 * (f * 4294967296 : Int) - 2 * ((tuningWord f).toNat * 125000000) < 125000000) ∧
  (∀ f g : Nat, f < g → g ≤ 124999999 → (tuningWord f).toNat < (tuningWord g).toNat) ∧
  tuningWord 0 = 0#32 ∧ tuningWord 62500000 = 0x80000000#32 ∧ tuningWord 124999999 = 0xFFFFFFDE#32

/-- The tuning number fits 32 bits exactly up to `FREQ_MAX_HZ` = 124 999 999, and is `2^32` at the reference clock
(41_ddsser.md R92). -/
def Obligations.TheTuningWordFitsExactlyUpToTheMaximum : Prop :=
  (∀ f : Nat, tuningNumber f < 2 ^ 32 ↔ f ≤ 124999999) ∧ tuningNumber 125000000 = 2 ^ 32

/-- The frequency a committed frame stands for is within half a unit of the word, 125 000 000 / 2^33 Hz, of the frequency that
was asked for (41_ddsser.md R91, R111). -/
def Obligations.TheCommittedFrequencyIsWithinHalfAUnit : Prop :=
  ∀ f : Nat, f ≤ 124999999 → ∃ q : ℚ, outputFrequency (frameOf (tuningWord f)) = some q ∧
    |q - (f : ℚ)| ≤ 125000000 / 2 ^ 33

/-! ### Whole commands -/

/-- INIT and RUN from every state with DDSSER idle, whatever the operand bits: the trace grows by `X1 X0 C1 C0` and by nothing
else, both pulsed lines end low, and no other part of the block changes (41_ddsser.md R94, R99; the order and the polarity of
the pulses are the spec's own reading, log 16). The receiver takes the bit on `DATA` at the one rising edge of `CLK`, if `CLK`
was low (41_ddsser.md R108, R109; log 23). -/
def Obligations.InitSendsItsFourWrites : Prop :=
  ∀ (s : State) (w : BitVec 34) (rest : List Event),
    s.inputs = .sc w :: .run :: rest → w.toNat / 2 ^ 32 = 1 → s.ser.seq = .idle → s.inReset = false →
    ∃ t : State, core.run 5 s = .next t ∧ t.inputs = rest ∧
      t.ser = { s.ser with
        reset := false, clk := false
        trace := s.ser.trace ++ [⟨.reset, true⟩, ⟨.reset, false⟩, ⟨.clk, true⟩, ⟨.clk, false⟩] } ∧
      t.rx = (if s.ser.clk then s.rx else clockIn s.ser.data s.rx) ∧
      t.qdec = { s.qdec with stepOut := t.qdec.stepOut } ∧
      t.env = s.env ∧ t.params = s.params ∧ t.draws = s.draws ∧ t.inReset = false

/-- What DDSSER sends for a LOAD, from every state with DDSSER idle: the levels that LOAD and RUN write to `DATA`, in order, are
the tuning word's bits from the least significant on, then eight zeros, and there are 80 writes to `CLK`, 2 to `FQ_UD` and
none to `RESET` (20_memory.md R34, 30_encoding.md R57, 41_ddsser.md R100). -/
def Obligations.TheWordIsSentLeastSignificantBitFirst : Prop :=
  ∀ (s : State) (f : Hertz) (rest : List Event),
    s.inputs = .sc (BitVec.ofNat 34 (2 * 2 ^ 32 + f.toNat)) :: .run :: rest → f.toNat ≤ 124999999 →
    s.ser.seq = .idle → s.inReset = false →
    let W := (f.toNat * 4294967296 + 62500000) / 125000000
    ∃ (t : State) (T : List PinEntry), core.run 123 s = .next t ∧ t.ser.trace = s.ser.trace ++ T ∧
      (T.filter (fun e => e.line = .data)).map PinEntry.level =
        (List.range 32).map (fun k => W.testBit k) ++ List.replicate 8 false ∧
      T.countP (fun e => e.line = .clk) = 80 ∧ T.countP (fun e => e.line = .fqUd) = 2 ∧
      T.countP (fun e => e.line = .reset) = 0

/-- LOAD and RUN from every state with DDSSER idle: the frame is held, the trace grows by the 122 entries that send the tuning
word's bits and eight zeros from the least significant bit on, each as a `DATA` write and a `CLK` pulse, then one `FQ_UD`
pulse; `DATA`, `CLK` and `FQ_UD` end low and `RESET` is never touched. Above `FREQ_MAX_HZ` it is refused
(41_ddsser.md R95). -/
def Obligations.ALoadSendsItsFrameAndCommits : Prop :=
  ∀ (s : State) (f : Hertz) (rest : List Event),
    s.inputs = .sc (BitVec.ofNat 34 (2 * 2 ^ 32 + f.toNat)) :: .run :: rest → s.ser.seq = .idle → s.inReset = false →
    (124999999 < f.toNat → step s = .refused .frequencyOutOfRange) ∧
    (f.toNat ≤ 124999999 →
      let W := (f.toNat * 4294967296 + 62500000) / 125000000
      ∃ (t : State) (T : List PinEntry), core.run 123 s = .next t ∧ t.inputs = rest ∧
        t.ser.trace = s.ser.trace ++ T ∧ T.length = 122 ∧
        (∀ m < 120, T[m]? = some
          (if m % 3 = 0 then ⟨.data, W.testBit (m / 3)⟩
          else if m % 3 = 1 then ⟨.clk, true⟩ else ⟨.clk, false⟩)) ∧
        T[120]? = some ⟨.fqUd, true⟩ ∧ T[121]? = some ⟨.fqUd, false⟩ ∧
        t.ser.seq = .idle ∧ t.ser.shreg = BitVec.ofNat 40 W ∧ t.ser.data = false ∧
        t.ser.clk = false ∧ t.ser.fqUd = false ∧ t.ser.reset = s.ser.reset)

/-- The round trip: from any state with DDSSER idle and `CLK`, `FQ_UD` low, and whatever the receiver held, a legal LOAD and
RUN extends the trace by the 122 entries of the frame of `W(f)`, leaves every line but `RESET` low and DDSSER idle, and the
receiver has committed exactly that frame; nothing else changes (41_ddsser.md R95, R100, R111). -/
def Obligations.ALoadIsReceivedAsTheFrameOfItsWord : Prop :=
  ∀ (s : State) (f : Hertz) (rest : List Event),
    s.inputs = .sc (BitVec.ofNat 34 (encode (.load f))) :: .run :: rest → f.toNat ≤ 124999999 →
    s.ser.seq = .idle → s.inReset = false → s.ser.clk = false → s.ser.fqUd = false →
    let F : Frame := frameOf (tuningWord f.toNat)
    core.run 123 s = .next { s with
      inputs := rest
      qdec := { s.qdec with stepOut := 0b00#2 }
      ser := { s.ser with
        data := false, clk := false, fqUd := false, shreg := F
        trace := s.ser.trace ++ frameTrace F }
      rx := { stage := F, cnt := 40, committed := some F } }

/-- The start-up from reset: the control loop issues INIT and then the LOAD of 14 000 000 Hz, whatever it looks at
(70_reset_and_hazards.md R173, 42_tuning_context.md R131). The loop's form is the model's choice (log 17, 18). -/
def Obligations.StartUpIssuesInitThenTheFirstLoad : Prop :=
  ∀ l l' : Look, ∃ t : State,
    core.run 128 { State.reset with inputs := [.loop l, .run, .loop l', .run] } = .next t ∧
    t.ser.trace = initTrace ++ frameTrace 0x001CAC0831#40 ∧ t.ser.seq = .idle ∧
    t.rx.committed = some 0x001CAC0831#40 ∧ t.env.phase = .poll ∧ t.inputs = []

/-- Every step keeps: the held frame's control byte is zero, and each of the four lines has exactly the level its place in the
command says; at rest all four are low (41_ddsser.md R97, R101, R102, 30_encoding.md R58). -/
def Obligations.EveryStepKeepsTheLinesOnTheSequencer : Prop :=
  ∀ s t : State, SerializerInv s.ser → step s = .next t → SerializerInv t.ser

/-- Every step keeps: the output trace is whole traces of legal commands, one after the other, followed by the beginning of the
trace of the command in progress; so no frame is ever shorter, longer or misaligned, and no write is merged, dropped or
reordered (20_memory.md R35, R38, R44; 41_ddsser.md R99, R100). -/
def Obligations.EveryStepKeepsTheTraceWholeCommands : Prop :=
  ∀ s t : State, TraceOfCommands s.ser → step s = .next t → TraceOfCommands t.ser

/-- What the device holds as committed changes only in the micro-step that raises `FQ_UD`, to what was staged (or to none, if
fewer than 40 bits were clocked): all prior transfers have no effect until it (41_ddsser.md R103). -/
def Obligations.OnlyTheCommitPulseChangesTheOutput : Prop :=
  ∀ s t : State, step s = .next t → t.rx.committed ≠ s.rx.committed →
    s.ser.seq = .load 120 ∧ t.ser.seq = .load 121 ∧ s.ser.fqUd = false ∧ t.ser.fqUd = true ∧
      t.rx.committed = if s.rx.cnt = 40 then some s.rx.stage else none

/-- Unless the block is reset, `DATA` changes only in a data micro-step; with the lines on the sequencer `CLK` is low before
and after that step, so `DATA` is stable over the whole clock pulse (41_ddsser.md R102). -/
def Obligations.DataIsStableOverTheClockPulse : Prop :=
  ∀ s t : State, SerializerInv s.ser → step s = .next t → s.inputs.head? ≠ some (.blockReset true) →
    t.ser.data ≠ s.ser.data →
    (∃ m : Fin 122, s.ser.seq = .load m ∧ m.val < 120 ∧ m.val % 3 = 0) ∧
      s.ser.clk = false ∧ t.ser.clk = false

/-! ### The two units and their interleaving -/

/-- Over all instructions, the frame of the other unit: no instruction changes the configuration, the reset input, the supply,
the draws or the environment; an edge operation or step code leaves DDSSER and the receiver alone; every other leaves QDEC alone, and
a command or frame writes no pin, no trace entry and nothing of the receiver (20_memory.md R40, 41_ddsser.md R96). -/
def Obligations.TheUnitsShareNoState : Prop :=
  ∀ (i : Instr) (s t : State), exec i s = .next t →
    t.params = s.params ∧ t.inReset = s.inReset ∧ t.inputs = s.inputs ∧ t.draws = s.draws ∧ t.env = s.env ∧
    (i.format = .qe ∨ i.format = .so → t.ser = s.ser ∧ t.rx = s.rx ∧
      t.qdec.pendA = s.qdec.pendA ∧ t.qdec.pendB = s.qdec.pendB) ∧
    (i.format = .sc ∨ i.format = .f40 ∨ i.format = .pw → t.qdec = s.qdec) ∧
    (i.format = .sc ∨ i.format = .f40 → t.rx = s.rx ∧ t.ser.trace = s.ser.trace ∧
      ∀ l, lineLevel t.ser l = lineLevel s.ser l)

/-- However edge events, line changes and services are interleaved with micro-steps, DDSSER ends as after its micro-steps
alone and QDEC as after its own events alone: the same output trace and the same step log for every interleaving
(20_memory.md R40, 41_ddsser.md R106). -/
def Obligations.InterleavingChangesNeitherTraceNorStepLog : Prop :=
  ∀ (s : State) (es : List Event), (∀ e ∈ es, e = .micro ∨ e.decoderSide = true) →
    ∃ t u : State,
      core.run es.length { s with inputs := es } = .next t ∧
      core.run (es.filter Event.decoderSide).length
        { s with inputs := es.filter Event.decoderSide } = .next u ∧
      t.ser = microSteps (es.count .micro) s.ser ∧ u.ser = s.ser ∧
      t.qdec.lasting = u.qdec.lasting ∧ t.env = u.env

/-- A step answers a next state exactly when what is supplied next keeps the environment's contract: nothing else is refused
and nothing faults (70_reset_and_hazards.md R184, 60_exceptions.md R150). The refusal of a tuning call inside the driver is
the model's reading of 42_tuning_context.md R131 (log 14), and that a legal command during the block's reset goes on the model's
choice (log 20). -/
def Obligations.AStepAnswersExactlyUnderTheContract : Prop :=
  ∀ s : State, (∃ t, step s = .next t) ↔ s.safe

/-- When the environment supplies nothing more, the block is quiescent after at most two services and 122 micro-steps
(70_reset_and_hazards.md R180, R183). That the block goes on by itself is the model's choice (log 12). -/
def Obligations.ASuppliedRunEndsQuiescent : Prop :=
  ∀ s : State, s.inputs = [] →
    ∃ k ≤ 124, ∃ t : State, core.run k s = .next t ∧ t.quiescent ∧ t.inputs = []

/-! ### The environment -/

/-- `apply_step`: one kilohertz in the step's direction, below the minimum to the maximum, above the maximum to the minimum;
band, mode and bounds do not change, and neither does the block (42_tuning_context.md R126). -/
def Obligations.ApplyStepMovesOneKilohertzAndWraps : Prop :=
  ∀ (s : State) (e : StepEvent) (rest : List Event),
    s.inputs = .call (.applyStep e) :: rest → s.ser.seq = .idle →
    let u := s.env.tuning
    let d : Int := u.display + (match e with | .inc => 1 | .dec => -1)
    ∃ t, step s = .next t ∧
      (d < u.min → t.env.tuning.display = u.max) ∧
      (u.min ≤ d → u.max < d → t.env.tuning.display = u.min) ∧
      (u.min ≤ d → d ≤ u.max → (t.env.tuning.display : Int) = d) ∧
      t.env.tuning = { u with display := t.env.tuning.display } ∧
      t.ser = s.ser ∧ t.rx = s.rx ∧ t.qdec.lasting = s.qdec.lasting

/-- `change_band` enters the next band of the cycle 10, 15, 20, 40, 80, 160, 10 at its default and bounds with the mode
unchanged, and six calls in a row return to the band they began at, at its default and bounds
(42_tuning_context.md R122, R127). -/
def Obligations.SixBandChangesReturn : Prop :=
  (nextBand (some .m10) = .m15 ∧ nextBand (some .m15) = .m20 ∧ nextBand (some .m20) = .m40 ∧
    nextBand (some .m40) = .m80 ∧ nextBand (some .m80) = .m160 ∧ nextBand (some .m160) = .m10 ∧
    nextBand none = .m20) ∧
  ∀ s : State, s.ser.seq = .idle →
    (∃ t, core.run 1 { s with inputs := [.call .changeBand] } = .next t ∧
      let r := s.params.bands.row (nextBand (some s.env.tuning.band))
      t.env.tuning = ⟨nextBand (some s.env.tuning.band), s.env.tuning.mode, r.dflt, r.min, r.max⟩) ∧
    (∃ t, core.run 6 { s with inputs := List.replicate 6 (.call .changeBand) } = .next t ∧
      let r := s.params.bands.row s.env.tuning.band
      t.env.tuning = ⟨s.env.tuning.band, s.env.tuning.mode, r.dflt, r.min, r.max⟩)

/-- `change_mode` toggles the mode and re-enters the current band; two calls restore the mode, leave the bounds as they were and
reset the display frequency to the band's default both times (42_tuning_context.md R128). -/
def Obligations.ChangeModeReentersTheBand : Prop :=
  ∀ s : State, s.ser.seq = .idle →
    let r := s.params.bands.row s.env.tuning.band
    (∃ t, core.run 1 { s with inputs := [.call .changeMode] } = .next t ∧
      t.env.tuning.mode ≠ s.env.tuning.mode ∧ t.env.tuning.band = s.env.tuning.band ∧
      t.env.tuning.display = r.dflt ∧ t.env.tuning.min = r.min ∧ t.env.tuning.max = r.max) ∧
    (∃ t, core.run 2 { s with inputs := [.call .changeMode, .call .changeMode] } = .next t ∧
      t.env.tuning = ⟨s.env.tuning.band, s.env.tuning.mode, r.dflt, r.min, r.max⟩ ∧
      (TuningInv s.params s.env.tuning →
        t.env.tuning.min = s.env.tuning.min ∧ t.env.tuning.max = s.env.tuning.max))

/-- FrequencyTranslator: the display frequency unchanged in Primary mode, plus 9.000 MHz in OffsetExciter mode, for every band
(42_tuning_context.md R129). -/
def Obligations.TheTranslatorAddsTheOffsetInExciterMode : Prop :=
  ∀ u : TuningState,
    (u.mode = .primary → translate u = u.display) ∧
    (u.mode = .offsetExciter → translate u = u.display + 9000)

/-- The recommit after a mutation is never refused while the tuning state is within its band, and begins the frame of the
display frequency, plus 9.000 MHz in OffsetExciter mode for every band, in hertz (42_tuning_context.md R129, R130, R131,
R136). The exact bound 38 700 000 rests on log 10, which reads R121's "about 29.7 MHz" as exactly 29700 kHz. The loop's form is
the model's choice (log 17), and that a LOAD during the block's reset has no effect (log 20). -/
def Obligations.TheLoopRecommitsTheTranslatedFrequency : Prop :=
  ∀ (s : State) (l : Look) (rest : List Event),
    s.inputs = .loop l :: rest → s.ser.seq = .idle → s.env.phase = .recommit →
    TuningInv s.params s.env.tuning →
    let kHz := match s.env.tuning.mode with
      | .primary => s.env.tuning.display
      | .offsetExciter => s.env.tuning.display + 9000
    kHz * 1000 ≤ 38700000 ∧
    ∃ t, step s = .next t ∧ t.env.tuning = s.env.tuning ∧ t.env.phase = .poll ∧
      (s.inReset = true → t.ser = s.ser) ∧
      (s.inReset = false → t.ser = { s.ser with
        shreg := BitVec.ofNat 40 ((kHz * 1000 * 4294967296 + 62500000) / 125000000), seq := .load 0 })

/-- The polling loop applies a difference of `pos` unit by unit: reading a `pos` other than the one it last acted on, it applies
one step of the difference's sign, remembers the new value and owes the rest; while it owes, each turn, whatever it looks at,
applies one step of what is owed and owes one less; each step owes a recommit. With no difference, or with no `pos`, a reading
changes nothing (42_tuning_context.md R135). The loop's form is the model's choice (log 17). -/
def Obligations.TheLoopAppliesTheDifferenceOfPos : Prop :=
  ∀ (s : State) (l : Look) (rest : List Event),
    s.inputs = .loop l :: rest → s.ser.seq = .idle → s.env.phase = .poll →
    let d : Int := (s.qdec.pos.value - BitVec.ofNat s.qdec.pos.width s.env.lastPos.value.toNat).toInt
    ∃ t, step s = .next t ∧
      (s.env.owed = 0 → l = .position →
        (s.params.hasPos = false ∨ d = 0 → t.env = s.env) ∧
        (s.params.hasPos = true → d ≠ 0 → t.env.lastPos = s.qdec.pos ∧ t.env.phase = .recommit) ∧
        (s.params.hasPos = true → 0 < d →
          t.env.tuning = applyStep .inc s.env.tuning ∧ t.env.owed = d - 1) ∧
        (s.params.hasPos = true → d < 0 →
          t.env.tuning = applyStep .dec s.env.tuning ∧ t.env.owed = d + 1)) ∧
      (s.env.owed ≠ 0 → t.env.lastPos = s.env.lastPos ∧ t.env.phase = .recommit ∧
        t.env.bandButton = s.env.bandButton ∧ t.env.modeButton = s.env.modeButton) ∧
      (0 < s.env.owed →
        t.env.tuning = applyStep .inc s.env.tuning ∧ t.env.owed = s.env.owed - 1) ∧
      (s.env.owed < 0 →
        t.env.tuning = applyStep .dec s.env.tuning ∧ t.env.owed = s.env.owed + 1) ∧
      t.ser = s.ser ∧ t.qdec.lasting = s.qdec.lasting

/-- A press makes exactly one call when the loop looks at its button, and a look at either button when it is not pressed makes none
(42_tuning_context.md R133). The loop's form is the model's choice (log 17, 19). -/
def Obligations.APressMakesOneCall : Prop :=
  ∀ s : State, s.ser.seq = .idle → s.env.phase = .poll → s.env.owed = 0 →
    (∃ t, core.run 2 { s with inputs := [.press .band, .loop .bandButton] } = .next t ∧
      t.env.tuning = changeBand s.params.bands s.env.tuning ∧ t.env.bandButton = false ∧
      t.env.modeButton = s.env.modeButton ∧ t.env.phase = .recommit) ∧
    (∃ t, core.run 2 { s with inputs := [.press .mode, .loop .modeButton] } = .next t ∧
      t.env.tuning = changeMode s.params.bands s.env.tuning ∧ t.env.modeButton = false ∧
      t.env.bandButton = s.env.bandButton ∧ t.env.phase = .recommit) ∧
    (∃ t, core.run 2 { s with inputs := [.release .band, .loop .bandButton] } = .next t ∧
      t.env.tuning = s.env.tuning ∧ t.env.phase = .poll) ∧
    (∃ t, core.run 2 { s with inputs := [.release .mode, .loop .modeButton] } = .next t ∧
      t.env.tuning = s.env.tuning ∧ t.env.phase = .poll)

/-- Every step keeps the display frequency within the bounds, and the bounds those of the current band
(42_tuning_context.md R124). -/
def Obligations.EveryStepKeepsTheDisplayInItsBand : Prop :=
  ∀ s t : State, TuningInv s.params s.env.tuning → step s = .next t →
    TuningInv t.params t.env.tuning

/-! ### Reset -/

/-- The block's reset, applied in any state and also inside a command: every element of the block takes its value, the logs
start empty, and neither the device nor the environment sees a pin write (70_reset_and_hazards.md R170, 41_ddsser.md R107).
When it ends nothing else changes, so that the next rising edge is captured. -/
def Obligations.TheBlocksResetGivesEveryElementItsValue : Prop :=
  ∀ (s : State) (rest : List Event),
    (s.inputs = .blockReset true :: rest →
      ∃ t, step s = .next t ∧ t.inReset = true ∧
        t.qdec.expectA = false ∧ t.qdec.expectB = false ∧ t.qdec.snap = 0b00#2 ∧
        t.qdec.pos = ⟨s.qdec.pos.width, 0⟩ ∧ t.qdec.pendA = false ∧ t.qdec.pendB = false ∧
        t.qdec.stepLog = [] ∧
        t.ser.data = false ∧ t.ser.clk = false ∧ t.ser.fqUd = false ∧ t.ser.reset = false ∧
        t.ser.seq = .idle ∧ t.ser.shreg = 0 ∧ t.ser.trace = [] ∧
        t.rx = s.rx ∧ t.env = s.env ∧ t.params = s.params ∧ t.inputs = rest) ∧
    (s.inputs = .blockReset false :: rest →
      ∃ t, step s = .next t ∧ t.inReset = false ∧ t.qdec.lasting = s.qdec.lasting ∧
        t.qdec.snap = s.qdec.snap ∧ t.ser = s.ser ∧ t.rx = s.rx ∧ t.env = s.env ∧
        t.params = s.params ∧ t.inputs = rest)

/-- Every step keeps: while the block's reset is applied every element of the block has its reset value, whatever is supplied; so
no edge of the lines during reset is captured, nothing is decoded and nothing is sent (70_reset_and_hazards.md R170). That a
word presented during reset has no effect is the model's choice (log 20). -/
def Obligations.EveryStepKeepsTheBlockAtRestInReset : Prop :=
  ∀ s t : State, s.restsInReset → step s = .next t → t.restsInReset

/-- The machine right after reset meets every property that every step keeps (10_state.md R24, 42_tuning_context.md R125). -/
def Obligations.ResetMeetsWhatEveryStepKeeps : Prop :=
  DecoderInv State.reset.params State.reset.qdec ∧ SerializerInv State.reset.ser ∧
  TraceOfCommands State.reset.ser ∧ TuningInv State.reset.params State.reset.env.tuning ∧
  State.reset.restsInReset ∧ State.reset.quiescent
end

