-- ==== Sys2Proof/Laws/State.lean ====
section
/-! SUPPORT. One lemma per field per update: what each change of a part of the state, and of the state, leaves and
writes. Later proofs cite these instead of unfolding a record update. -/

namespace Sys2Proof.Machine

open Sys2Proof

/-! ### Changes of QDEC -/

@[simp] theorem clearFlags_expectA (q : Qdec) :
    (clearFlags q).expectA = false := rfl
@[simp] theorem clearFlags_expectB (q : Qdec) :
    (clearFlags q).expectB = false := rfl
@[simp] theorem clearFlags_snap (q : Qdec) :
    (clearFlags q).snap = q.snap := rfl
@[simp] theorem clearFlags_pos (q : Qdec) :
    (clearFlags q).pos = q.pos := rfl
@[simp] theorem clearFlags_stepOut (q : Qdec) :
    (clearFlags q).stepOut = q.stepOut := rfl
@[simp] theorem clearFlags_pendA (q : Qdec) :
    (clearFlags q).pendA = q.pendA := rfl
@[simp] theorem clearFlags_pendB (q : Qdec) :
    (clearFlags q).pendB = q.pendB := rfl
@[simp] theorem clearFlags_stepLog (q : Qdec) :
    (clearFlags q).stepLog = q.stepLog := rfl

@[simp] theorem armExpectA_expectA (q : Qdec) :
    (armExpectA q).expectA = true := rfl
@[simp] theorem armExpectA_expectB (q : Qdec) :
    (armExpectA q).expectB = q.expectB := rfl
@[simp] theorem armExpectA_snap (q : Qdec) :
    (armExpectA q).snap = q.snap := rfl
@[simp] theorem armExpectA_pos (q : Qdec) :
    (armExpectA q).pos = q.pos := rfl
@[simp] theorem armExpectA_stepOut (q : Qdec) :
    (armExpectA q).stepOut = q.stepOut := rfl
@[simp] theorem armExpectA_pendA (q : Qdec) :
    (armExpectA q).pendA = q.pendA := rfl
@[simp] theorem armExpectA_pendB (q : Qdec) :
    (armExpectA q).pendB = q.pendB := rfl
@[simp] theorem armExpectA_stepLog (q : Qdec) :
    (armExpectA q).stepLog = q.stepLog := rfl

@[simp] theorem armExpectB_expectA (q : Qdec) :
    (armExpectB q).expectA = q.expectA := rfl
@[simp] theorem armExpectB_expectB (q : Qdec) :
    (armExpectB q).expectB = true := rfl
@[simp] theorem armExpectB_snap (q : Qdec) :
    (armExpectB q).snap = q.snap := rfl
@[simp] theorem armExpectB_pos (q : Qdec) :
    (armExpectB q).pos = q.pos := rfl
@[simp] theorem armExpectB_stepOut (q : Qdec) :
    (armExpectB q).stepOut = q.stepOut := rfl
@[simp] theorem armExpectB_pendA (q : Qdec) :
    (armExpectB q).pendA = q.pendA := rfl
@[simp] theorem armExpectB_pendB (q : Qdec) :
    (armExpectB q).pendB = q.pendB := rfl
@[simp] theorem armExpectB_stepLog (q : Qdec) :
    (armExpectB q).stepLog = q.stepLog := rfl

@[simp] theorem noStep_expectA (q : Qdec) :
    (noStep q).expectA = q.expectA := rfl
@[simp] theorem noStep_expectB (q : Qdec) :
    (noStep q).expectB = q.expectB := rfl
@[simp] theorem noStep_snap (q : Qdec) :
    (noStep q).snap = q.snap := rfl
@[simp] theorem noStep_pos (q : Qdec) :
    (noStep q).pos = q.pos := rfl
@[simp] theorem noStep_stepOut (q : Qdec) :
    (noStep q).stepOut = 0b00#2 := rfl
@[simp] theorem noStep_pendA (q : Qdec) :
    (noStep q).pendA = q.pendA := rfl
@[simp] theorem noStep_pendB (q : Qdec) :
    (noStep q).pendB = q.pendB := rfl
@[simp] theorem noStep_stepLog (q : Qdec) :
    (noStep q).stepLog = q.stepLog := rfl

@[simp] theorem deliverStep_expectA (h : Bool) (e : StepEvent) (q : Qdec) :
    (deliverStep h e q).expectA = false := rfl
@[simp] theorem deliverStep_expectB (h : Bool) (e : StepEvent) (q : Qdec) :
    (deliverStep h e q).expectB = false := rfl
@[simp] theorem deliverStep_snap (h : Bool) (e : StepEvent) (q : Qdec) :
    (deliverStep h e q).snap = q.snap := rfl
@[simp] theorem deliverStep_pos (h : Bool) (e : StepEvent) (q : Qdec) :
    (deliverStep h e q).pos = if h then posAdd q.pos (stepValue e) else q.pos := rfl
@[simp] theorem deliverStep_stepOut (h : Bool) (e : StepEvent) (q : Qdec) :
    (deliverStep h e q).stepOut = stepCode e := rfl
@[simp] theorem deliverStep_pendA (h : Bool) (e : StepEvent) (q : Qdec) :
    (deliverStep h e q).pendA = q.pendA := rfl
@[simp] theorem deliverStep_pendB (h : Bool) (e : StepEvent) (q : Qdec) :
    (deliverStep h e q).pendB = q.pendB := rfl
@[simp] theorem deliverStep_stepLog (h : Bool) (e : StepEvent) (q : Qdec) :
    (deliverStep h e q).stepLog = q.stepLog ++ [e] := rfl

@[simp] theorem posAdd_width (p : PosCounter) (d : Int) : (posAdd p d).width = p.width := rfl

/-! ### Changes of DDSSER -/

@[simp] theorem beginInit_data (d : Ddsser) :
    (beginInit d).data = d.data := rfl
@[simp] theorem beginInit_clk (d : Ddsser) :
    (beginInit d).clk = d.clk := rfl
@[simp] theorem beginInit_fqUd (d : Ddsser) :
    (beginInit d).fqUd = d.fqUd := rfl
@[simp] theorem beginInit_reset (d : Ddsser) :
    (beginInit d).reset = d.reset := rfl
@[simp] theorem beginInit_seq (d : Ddsser) :
    (beginInit d).seq = .init 0 := rfl
@[simp] theorem beginInit_shreg (d : Ddsser) :
    (beginInit d).shreg = d.shreg := rfl
@[simp] theorem beginInit_trace (d : Ddsser) :
    (beginInit d).trace = d.trace := rfl

@[simp] theorem beginFrame_data (w : TuningWord) (d : Ddsser) :
    (beginFrame w d).data = d.data := rfl
@[simp] theorem beginFrame_clk (w : TuningWord) (d : Ddsser) :
    (beginFrame w d).clk = d.clk := rfl
@[simp] theorem beginFrame_fqUd (w : TuningWord) (d : Ddsser) :
    (beginFrame w d).fqUd = d.fqUd := rfl
@[simp] theorem beginFrame_reset (w : TuningWord) (d : Ddsser) :
    (beginFrame w d).reset = d.reset := rfl
@[simp] theorem beginFrame_seq (w : TuningWord) (d : Ddsser) :
    (beginFrame w d).seq = .load 0 := rfl
@[simp] theorem beginFrame_shreg (w : TuningWord) (d : Ddsser) :
    (beginFrame w d).shreg = frameOf w := rfl
@[simp] theorem beginFrame_trace (w : TuningWord) (d : Ddsser) :
    (beginFrame w d).trace = d.trace := rfl

@[simp] theorem advance_data (d : Ddsser) :
    (advance d).data = d.data := rfl
@[simp] theorem advance_clk (d : Ddsser) :
    (advance d).clk = d.clk := rfl
@[simp] theorem advance_fqUd (d : Ddsser) :
    (advance d).fqUd = d.fqUd := rfl
@[simp] theorem advance_reset (d : Ddsser) :
    (advance d).reset = d.reset := rfl
@[simp] theorem advance_seq (d : Ddsser) :
    (advance d).seq = seqNext d.seq := rfl
@[simp] theorem advance_shreg (d : Ddsser) :
    (advance d).shreg = d.shreg := rfl
@[simp] theorem advance_trace (d : Ddsser) :
    (advance d).trace = d.trace := rfl

@[simp] theorem setLine_seq (d : Ddsser) (l : OutLine) (v : Level) :
    (setLine d l v).seq = d.seq := by cases l <;> rfl
@[simp] theorem setLine_shreg (d : Ddsser) (l : OutLine) (v : Level) :
    (setLine d l v).shreg = d.shreg := by cases l <;> rfl
@[simp] theorem setLine_trace (d : Ddsser) (l : OutLine) (v : Level) :
    (setLine d l v).trace = d.trace := by cases l <;> rfl

@[simp] theorem driveLine_seq (d : Ddsser) (e : PinEntry) :
    (driveLine d e).seq = d.seq := by simp [driveLine]
@[simp] theorem driveLine_shreg (d : Ddsser) (e : PinEntry) :
    (driveLine d e).shreg = d.shreg := by simp [driveLine]

@[simp] theorem driveLine_trace (d : Ddsser) (e : PinEntry) :
    (driveLine d e).trace = d.trace ++ [e] := rfl

@[simp] theorem lineLevel_advance (d : Ddsser) (l : OutLine) :
    lineLevel (advance d) l = lineLevel d l := by cases l <;> rfl

@[simp] theorem lineLevel_driveLine (d : Ddsser) (e : PinEntry) (l : OutLine) :
    lineLevel (driveLine d e) l = if l = e.line then e.level else lineLevel d l := by
  obtain ⟨line, level⟩ := e
  cases line <;> cases l <;> rfl

/-! ### Changes of the receiver -/

@[simp] theorem clockIn_stage (b : Level) (r : Receiver) :
    (clockIn b r).stage = shiftIn b r.stage := rfl
@[simp] theorem clockIn_cnt (b : Level) (r : Receiver) :
    (clockIn b r).cnt = min (r.cnt + 1) 40 := rfl
@[simp] theorem clockIn_committed (b : Level) (r : Receiver) :
    (clockIn b r).committed = r.committed := rfl

@[simp] theorem commit_stage (r : Receiver) :
    (commit r).stage = r.stage := rfl
@[simp] theorem commit_cnt (r : Receiver) :
    (commit r).cnt = r.cnt := rfl
@[simp] theorem commit_committed (r : Receiver) :
    (commit r).committed = if r.cnt = 40 then some r.stage else none := rfl

/-! ### Changes of the state -/

@[simp] theorem pinWrite_params (e : PinEntry) (s : State) :
    (pinWrite e s).params = s.params := rfl
@[simp] theorem pinWrite_inputs (e : PinEntry) (s : State) :
    (pinWrite e s).inputs = s.inputs := rfl
@[simp] theorem pinWrite_draws (e : PinEntry) (s : State) :
    (pinWrite e s).draws = s.draws := rfl
@[simp] theorem pinWrite_inReset (e : PinEntry) (s : State) :
    (pinWrite e s).inReset = s.inReset := rfl
@[simp] theorem pinWrite_qdec (e : PinEntry) (s : State) :
    (pinWrite e s).qdec = s.qdec := rfl
@[simp] theorem pinWrite_ser (e : PinEntry) (s : State) :
    (pinWrite e s).ser = driveLine s.ser e := rfl
@[simp] theorem pinWrite_rx (e : PinEntry) (s : State) :
    (pinWrite e s).rx = observe s.ser e s.rx := rfl
@[simp] theorem pinWrite_env (e : PinEntry) (s : State) :
    (pinWrite e s).env = s.env := rfl

@[simp] theorem updateQdec_params (g : Qdec → Qdec) (s : State) :
    (updateQdec g s).params = s.params := rfl
@[simp] theorem updateQdec_inputs (g : Qdec → Qdec) (s : State) :
    (updateQdec g s).inputs = s.inputs := rfl
@[simp] theorem updateQdec_draws (g : Qdec → Qdec) (s : State) :
    (updateQdec g s).draws = s.draws := rfl
@[simp] theorem updateQdec_inReset (g : Qdec → Qdec) (s : State) :
    (updateQdec g s).inReset = s.inReset := rfl
@[simp] theorem updateQdec_qdec (g : Qdec → Qdec) (s : State) :
    (updateQdec g s).qdec = g s.qdec := rfl
@[simp] theorem updateQdec_ser (g : Qdec → Qdec) (s : State) :
    (updateQdec g s).ser = s.ser := rfl
@[simp] theorem updateQdec_rx (g : Qdec → Qdec) (s : State) :
    (updateQdec g s).rx = s.rx := rfl
@[simp] theorem updateQdec_env (g : Qdec → Qdec) (s : State) :
    (updateQdec g s).env = s.env := rfl

@[simp] theorem takeA_params (s : State) :
    (takeA s).params = s.params := rfl
@[simp] theorem takeA_inputs (s : State) :
    (takeA s).inputs = s.inputs := rfl
@[simp] theorem takeA_draws (s : State) :
    (takeA s).draws = s.draws := rfl
@[simp] theorem takeA_inReset (s : State) :
    (takeA s).inReset = s.inReset := rfl
@[simp] theorem takeA_ser (s : State) :
    (takeA s).ser = s.ser := rfl
@[simp] theorem takeA_rx (s : State) :
    (takeA s).rx = s.rx := rfl
@[simp] theorem takeA_env (s : State) :
    (takeA s).env = s.env := rfl

@[simp] theorem takeB_params (s : State) :
    (takeB s).params = s.params := rfl
@[simp] theorem takeB_inputs (s : State) :
    (takeB s).inputs = s.inputs := rfl
@[simp] theorem takeB_draws (s : State) :
    (takeB s).draws = s.draws := rfl
@[simp] theorem takeB_inReset (s : State) :
    (takeB s).inReset = s.inReset := rfl
@[simp] theorem takeB_ser (s : State) :
    (takeB s).ser = s.ser := rfl
@[simp] theorem takeB_rx (s : State) :
    (takeB s).rx = s.rx := rfl
@[simp] theorem takeB_env (s : State) :
    (takeB s).env = s.env := rfl

@[simp] theorem quietStep_params (s : State) :
    (quietStep s).params = s.params := rfl
@[simp] theorem quietStep_inputs (s : State) :
    (quietStep s).inputs = s.inputs := rfl
@[simp] theorem quietStep_draws (s : State) :
    (quietStep s).draws = s.draws := rfl
@[simp] theorem quietStep_inReset (s : State) :
    (quietStep s).inReset = s.inReset := rfl
@[simp] theorem quietStep_qdec (s : State) :
    (quietStep s).qdec = noStep s.qdec := rfl
@[simp] theorem quietStep_ser (s : State) :
    (quietStep s).ser = s.ser := rfl
@[simp] theorem quietStep_rx (s : State) :
    (quietStep s).rx = s.rx := rfl
@[simp] theorem quietStep_env (s : State) :
    (quietStep s).env = s.env := rfl

@[simp] theorem setLines_params (a b : Level) (s : State) :
    (setLines a b s).params = s.params := rfl
@[simp] theorem setLines_inputs (a b : Level) (s : State) :
    (setLines a b s).inputs = s.inputs := rfl
@[simp] theorem setLines_draws (a b : Level) (s : State) :
    (setLines a b s).draws = s.draws := rfl
@[simp] theorem setLines_inReset (a b : Level) (s : State) :
    (setLines a b s).inReset = s.inReset := rfl
@[simp] theorem setLines_ser (a b : Level) (s : State) :
    (setLines a b s).ser = s.ser := rfl
@[simp] theorem setLines_rx (a b : Level) (s : State) :
    (setLines a b s).rx = s.rx := rfl

@[simp] theorem applyReset_params (s : State) :
    (applyReset s).params = s.params := rfl
@[simp] theorem applyReset_inputs (s : State) :
    (applyReset s).inputs = s.inputs := rfl
@[simp] theorem applyReset_draws (s : State) :
    (applyReset s).draws = s.draws := rfl
@[simp] theorem applyReset_inReset (s : State) :
    (applyReset s).inReset = true := rfl
@[simp] theorem applyReset_qdec (s : State) :
    (applyReset s).qdec = .afterReset s.qdec.pos.width := rfl
@[simp] theorem applyReset_ser (s : State) :
    (applyReset s).ser = .afterReset := rfl
@[simp] theorem applyReset_rx (s : State) :
    (applyReset s).rx = s.rx := rfl
@[simp] theorem applyReset_env (s : State) :
    (applyReset s).env = s.env := rfl

@[simp] theorem endReset_params (s : State) :
    (endReset s).params = s.params := rfl
@[simp] theorem endReset_inputs (s : State) :
    (endReset s).inputs = s.inputs := rfl
@[simp] theorem endReset_draws (s : State) :
    (endReset s).draws = s.draws := rfl
@[simp] theorem endReset_inReset (s : State) :
    (endReset s).inReset = false := rfl
@[simp] theorem endReset_qdec (s : State) :
    (endReset s).qdec = s.qdec := rfl
@[simp] theorem endReset_ser (s : State) :
    (endReset s).ser = s.ser := rfl
@[simp] theorem endReset_rx (s : State) :
    (endReset s).rx = s.rx := rfl
@[simp] theorem endReset_env (s : State) :
    (endReset s).env = s.env := rfl

@[simp] theorem setButton_params (b : Button) (p : Bool) (s : State) :
    (setButton b p s).params = s.params := by cases b <;> rfl
@[simp] theorem setButton_inputs (b : Button) (p : Bool) (s : State) :
    (setButton b p s).inputs = s.inputs := by cases b <;> rfl
@[simp] theorem setButton_draws (b : Button) (p : Bool) (s : State) :
    (setButton b p s).draws = s.draws := by cases b <;> rfl
@[simp] theorem setButton_inReset (b : Button) (p : Bool) (s : State) :
    (setButton b p s).inReset = s.inReset := by cases b <;> rfl
@[simp] theorem setButton_qdec (b : Button) (p : Bool) (s : State) :
    (setButton b p s).qdec = s.qdec := by cases b <;> rfl
@[simp] theorem setButton_ser (b : Button) (p : Bool) (s : State) :
    (setButton b p s).ser = s.ser := by cases b <;> rfl
@[simp] theorem setButton_rx (b : Button) (p : Bool) (s : State) :
    (setButton b p s).rx = s.rx := by cases b <;> rfl

@[simp] theorem mutate_params (c : Call) (s : State) :
    (mutate c s).params = s.params := rfl
@[simp] theorem mutate_inputs (c : Call) (s : State) :
    (mutate c s).inputs = s.inputs := rfl
@[simp] theorem mutate_draws (c : Call) (s : State) :
    (mutate c s).draws = s.draws := rfl
@[simp] theorem mutate_inReset (c : Call) (s : State) :
    (mutate c s).inReset = s.inReset := rfl
@[simp] theorem mutate_qdec (c : Call) (s : State) :
    (mutate c s).qdec = s.qdec := rfl
@[simp] theorem mutate_ser (c : Call) (s : State) :
    (mutate c s).ser = s.ser := rfl
@[simp] theorem mutate_rx (c : Call) (s : State) :
    (mutate c s).rx = s.rx := rfl

@[simp] theorem payStep_params (s : State) :
    (payStep s).params = s.params := rfl
@[simp] theorem payStep_inputs (s : State) :
    (payStep s).inputs = s.inputs := rfl
@[simp] theorem payStep_draws (s : State) :
    (payStep s).draws = s.draws := rfl
@[simp] theorem payStep_inReset (s : State) :
    (payStep s).inReset = s.inReset := rfl
@[simp] theorem payStep_qdec (s : State) :
    (payStep s).qdec = s.qdec := rfl
@[simp] theorem payStep_ser (s : State) :
    (payStep s).ser = s.ser := rfl
@[simp] theorem payStep_rx (s : State) :
    (payStep s).rx = s.rx := rfl

@[simp] theorem readPosition_params (s : State) :
    (readPosition s).params = s.params := by simp only [readPosition]; split <;> simp
@[simp] theorem readPosition_inputs (s : State) :
    (readPosition s).inputs = s.inputs := by simp only [readPosition]; split <;> simp
@[simp] theorem readPosition_draws (s : State) :
    (readPosition s).draws = s.draws := by simp only [readPosition]; split <;> simp
@[simp] theorem readPosition_inReset (s : State) :
    (readPosition s).inReset = s.inReset := by simp only [readPosition]; split <;> simp
@[simp] theorem readPosition_qdec (s : State) :
    (readPosition s).qdec = s.qdec := by simp only [readPosition]; split <;> simp
@[simp] theorem readPosition_ser (s : State) :
    (readPosition s).ser = s.ser := by simp only [readPosition]; split <;> simp
@[simp] theorem readPosition_rx (s : State) :
    (readPosition s).rx = s.rx := by simp only [readPosition]; split <;> simp

@[simp] theorem pollMove_params (l : Look) (s : State) :
    (pollMove l s).params = s.params := by
  unfold pollMove; cases l <;> (repeat' split) <;> simp
@[simp] theorem pollMove_inputs (l : Look) (s : State) :
    (pollMove l s).inputs = s.inputs := by
  unfold pollMove; cases l <;> (repeat' split) <;> simp
@[simp] theorem pollMove_draws (l : Look) (s : State) :
    (pollMove l s).draws = s.draws := by
  unfold pollMove; cases l <;> (repeat' split) <;> simp
@[simp] theorem pollMove_inReset (l : Look) (s : State) :
    (pollMove l s).inReset = s.inReset := by
  unfold pollMove; cases l <;> (repeat' split) <;> simp
@[simp] theorem pollMove_qdec (l : Look) (s : State) :
    (pollMove l s).qdec = s.qdec := by
  unfold pollMove; cases l <;> (repeat' split) <;> simp
@[simp] theorem pollMove_ser (l : Look) (s : State) :
    (pollMove l s).ser = s.ser := by
  unfold pollMove; cases l <;> (repeat' split) <;> simp
@[simp] theorem pollMove_rx (l : Look) (s : State) :
    (pollMove l s).rx = s.rx := by
  unfold pollMove; cases l <;> (repeat' split) <;> simp

@[simp] theorem withFetchWord_params (s : State) (nbits w : Nat) :
    (s.withFetchWord nbits w).params = s.params := rfl
@[simp] theorem withFetchWord_inputs (s : State) (nbits w : Nat) :
    (s.withFetchWord nbits w).inputs = portEvent nbits w :: s.inputs := rfl
@[simp] theorem withFetchWord_draws (s : State) (nbits w : Nat) :
    (s.withFetchWord nbits w).draws = s.draws := rfl
@[simp] theorem withFetchWord_inReset (s : State) (nbits w : Nat) :
    (s.withFetchWord nbits w).inReset = s.inReset := rfl
@[simp] theorem withFetchWord_qdec (s : State) (nbits w : Nat) :
    (s.withFetchWord nbits w).qdec = s.qdec := rfl
@[simp] theorem withFetchWord_ser (s : State) (nbits w : Nat) :
    (s.withFetchWord nbits w).ser = s.ser := rfl
@[simp] theorem withFetchWord_rx (s : State) (nbits w : Nat) :
    (s.withFetchWord nbits w).rx = s.rx := rfl
@[simp] theorem withFetchWord_env (s : State) (nbits w : Nat) :
    (s.withFetchWord nbits w).env = s.env := rfl

/-! ### The tuning state -/

@[simp] theorem mutate_tuning (c : Call) (s : State) :
    (mutate c s).env.tuning = mutation s.params.bands c s.env.tuning := rfl

@[simp] theorem setButton_tuning (b : Button) (p : Bool) (s : State) :
    (setButton b p s).env.tuning = s.env.tuning := by cases b <;> rfl

end Sys2Proof.Machine
end

