-- ==== Sys2Proof/Laws/Ops.lean ====
section
/-! SUPPORT. One lemma for each shared operation: everything it can answer. -/

namespace Sys2Proof.Machine

open Sys2Proof

/-! ### Answers -/

@[simp] theorem onNext_next (s : State) (g : State → State) : onNext (.next s) g = .next (g s) := rfl

@[simp] theorem onNext_refused (r : Refusal) (g : State → State) :
    onNext (.refused r) g = .refused r := rfl

theorem onNext_eq_next_iff {o : Answer} {g : State → State} {t : State} :
    onNext o g = .next t ↔ ∃ u, o = .next u ∧ g u = t := by
  cases o <;> simp [onNext]

/-! ### Widths -/

/-- The bounds of a frequency operand, a tuning word and a frame as numerals, for arithmetic (00_scope.md R7, R8). -/
theorem hertz_lt (f : Hertz) : f.toNat < 4294967296 := f.isLt

theorem word_lt (w : TuningWord) : w.toNat < 4294967296 := w.isLt

theorem frame_lt (F : Frame) : F.toNat < 1099511627776 := F.isLt

/-- The tuning number with its constants as numerals (41_ddsser.md R91). -/
theorem tuningNumber_eq (f : Nat) : tuningNumber f = (f * 4294967296 + 62500000) / 125000000 := rfl

/-! ### Commands -/

theorem busy_eq_false_iff {s : State} : s.busy = false ↔ s.ser.seq = .idle := by
  simp [State.busy]

theorem busy_eq_true_iff {s : State} : s.busy = true ↔ s.ser.seq ≠ .idle := by
  simp [State.busy]

theorem accept_of_idle {start : Ddsser → Ddsser} {s : State} (h : s.ser.seq = .idle) :
    accept start s = .next { s with ser := start s.ser } := by
  simp [accept, State.busy, h]

theorem accept_of_busy {start : Ddsser → Ddsser} {s : State} (h : s.ser.seq ≠ .idle) :
    accept start s = .refused .commandWhileBusy := by
  simp [accept, State.busy, h]

/-- All that accepting a command can answer with a next state. -/
theorem accept_eq_next_iff {start : Ddsser → Ddsser} {s t : State} :
    accept start s = .next t ↔ s.ser.seq = .idle ∧ t = { s with ser := start s.ser } := by
  by_cases h : s.ser.seq = .idle
  · simp [accept_of_idle h, h, eq_comm]
  · simp [accept_of_busy h, h]

/-- All that accepting a LOAD can answer with a next state. -/
theorem acceptLoad_eq_next_iff {f : Nat} {s t : State} :
    acceptLoad f s = .next t ↔
      s.ser.seq = .idle ∧ f ≤ Config.freqMaxHz ∧
        t = { s with ser := beginFrame (tuningWord f) s.ser } := by
  by_cases h : s.ser.seq = .idle
  · by_cases hf : f ≤ Config.freqMaxHz
    · simp [acceptLoad, State.busy, h, hf, accept_of_idle h, eq_comm]
    · simp [acceptLoad, State.busy, h, hf]
  · simp [acceptLoad, State.busy, h]

/-! ### Pin writes and micro-steps -/

/-- The eight trace codes are the eight pin writes. -/
theorem exec_pinCode (l : OutLine) (v : Level) (s : State) :
    exec (pinCode l v) s = .next (pinWrite ⟨l, v⟩ s) := by
  cases l <;> cases v <;> rfl

theorem dueWrite_eq_none_iff {d : Ddsser} : dueWrite d = none ↔ d.seq = .idle := by
  unfold dueWrite; split <;> simp_all

/-- All that a micro-step does: DDSSER's own step, and the receiver's reaction to the write that was due. -/
theorem microMove_eq (s : State) :
    microMove s = .next { s with
      ser := microStep s.ser
      rx := match dueWrite s.ser with
        | none => s.rx
        | some e => observe s.ser e s.rx } := by
  unfold microMove microStep
  cases dueWrite s.ser with
  | none => rfl
  | some e => simp only [exec_pinCode, onNext_next]; rfl

/-! ### QDEC -/

theorem exec_edgeA_eq (v : Snapshot) (s : State) :
    exec (.edgeA v) s = .next (updateQdec (edgeAOf s.params v) s) := rfl

theorem exec_edgeB_eq (v : Snapshot) (s : State) :
    exec (.edgeB v) s = .next (updateQdec (edgeBOf s.params v) s) := rfl

/-- An operation's branch, read back as its tests. -/
theorem edgeBranch_eq_emit_iff {v : Snapshot} {f : Bool} {a : Snapshot} :
    edgeBranch v f a = .emit ↔ v = Config.detent ∧ f = true := by
  unfold edgeBranch; split
  · simp_all
  · split <;> simp_all

/-- The body of an operation with its tests, as one choice among three. -/
theorem edgeBody_edgeBranch (h : Bool) (v : Snapshot) (f : Bool) (a : Snapshot) (e : StepEvent)
    (arm : Qdec → Qdec) (q : Qdec) :
    edgeBody h (edgeBranch v f a) e arm q =
      if v = Config.detent ∧ f = true then deliverStep h e q
      else if v = a then noStep (arm q) else noStep q := by
  unfold edgeBranch
  split
  · rfl
  · split <;> rfl

/-- Adding the value of an increment, and of a decrement, to `pos`. -/
theorem posAdd_inc (p : PosCounter) : posAdd p (stepValue .inc) = ⟨p.width, p.value + 1⟩ := by
  simp [posAdd, stepValue]

theorem posAdd_dec (p : PosCounter) : posAdd p (stepValue .dec) = ⟨p.width, p.value - 1⟩ := by
  have h : BitVec.ofInt p.width (-1) = -BitVec.ofNat p.width 1 := by
    rw [BitVec.ofInt_neg]; simp
  simp [posAdd, stepValue, BitVec.sub_eq_add_neg, h]

/-- QDEC after the operation of a QE word. -/
def edgeOf (p : Params) (w : BitVec 3) (q : Qdec) : Qdec :=
  if w.getLsbD 2 then edgeBOf p (w.extractLsb' 0 2) q else edgeAOf p (w.extractLsb' 0 2) q

/-- A QE word runs an operation that changes QDEC alone. -/
theorem exec_decodeQE (w : BitVec 3) (s : State) :
    exec (decodeQE w) s = .next (updateQdec (edgeOf s.params w) s) := by
  unfold decodeQE edgeOf
  cases h : w.getLsbD 2
  · exact exec_edgeA_eq _ s
  · exact exec_edgeB_eq _ s

/-- The service of line A's notification changes QDEC alone. -/
theorem serviceMoveA_eq (s : State) :
    serviceMoveA s = .next (updateQdec (fun q =>
      if q.pendA then edgeAOf s.params s.snapshot { q with pendA := false } else q) s) := by
  unfold serviceMoveA
  cases h : s.qdec.pendA <;> simp [h, exec_edgeA_eq, updateQdec, takeA]

/-- The service of line B's notification changes QDEC alone. -/
theorem serviceMoveB_eq (s : State) :
    serviceMoveB s = .next (updateQdec (fun q =>
      if q.pendB then edgeBOf s.params s.snapshot { q with pendB := false } else q) s) := by
  unfold serviceMoveB
  cases h : s.qdec.pendB <;> simp [h, exec_edgeB_eq, updateQdec, takeB]

/-! ### Command words -/

/-- The SC decoder, in the terms of the word's two fields. -/
theorem decodeSC_eq (w : BitVec 34) :
    decodeSC w =
      if commandCode w = 0 then .ok (.nop (BitVec.ofNat 32 w.toNat))
      else if commandCode w = 1 then .ok (.init (BitVec.ofNat 32 w.toNat))
      else if commandCode w = 2 then .ok (.load (BitVec.ofNat 32 w.toNat))
      else .error .reservedCommand := by
  have hc : ∀ k : Nat, k < 4 → (w.extractLsb' 32 2 = BitVec.ofNat 2 k ↔ commandCode w = k) := by
    intro k hk
    have hw := w.isLt
    simp only [← BitVec.toNat_inj, BitVec.extractLsb'_toNat, BitVec.toNat_ofNat, commandCode,
      Nat.shiftRight_eq_div_pow]
    omega
  have hf : w.extractLsb' 0 32 = BitVec.ofNat 32 w.toNat := by
    simp [BitVec.extractLsb']
  simp only [decodeSC, hf, hc 0 (by omega), hc 1 (by omega), hc 2 (by omega)]

/-! ### Operations presented during reset -/

@[simp] theorem heldOff_live {legal : Bool} {s : State} {o : Answer} (h : s.inReset = false) :
    heldOff legal s o = o := by
  simp [heldOff, h]

@[simp] theorem heldOff_in_reset {s : State} {o : Answer} (h : s.inReset = true) :
    heldOff true s o = .next s := by
  simp [heldOff, h]

/-- All that a presented operation can answer with a next state, where an illegal one has none. -/
theorem heldOff_next {legal : Bool} {s t : State} {o : Answer} (h : heldOff legal s o = .next t)
    (ill : legal = false → o ≠ .next t) :
    (s.inReset = true ∧ t = s) ∨ (s.inReset = false ∧ o = .next t) := by
  cases hr : s.inReset with
  | false => rw [heldOff_live hr] at h; exact .inr ⟨rfl, h⟩
  | true =>
    cases legal with
    | true => rw [heldOff_in_reset hr] at h; cases h; exact .inl ⟨rfl, rfl⟩
    | false => exact absurd (by simpa [heldOff] using h) (ill rfl)

theorem presentMove_live {i : Instr} {s : State} (h : s.inReset = false) :
    presentMove i s = exec i s := heldOff_live h

theorem presentMove_in_reset {i : Instr} {s : State} (h : s.inReset = true)
    (hi : i.wellFormed = true) : presentMove i s = .next s := by
  rw [presentMove, hi, heldOff_in_reset h]

theorem presentMove_illFormed {i : Instr} {s : State} (hi : i.wellFormed = false) :
    presentMove i s = exec i s := by
  simp [presentMove, heldOff, hi]

/-- A QE word changes QDEC alone, and nothing during reset. -/
theorem presentMove_decodeQE (w : BitVec 3) (s : State) :
    presentMove (decodeQE w) s =
      .next (if s.inReset then s else updateQdec (edgeOf s.params w) s) := by
  have hw : (decodeQE w).wellFormed = true := by unfold decodeQE; split <;> rfl
  cases hr : s.inReset with
  | false => rw [presentMove_live hr, exec_decodeQE]; rfl
  | true => rw [presentMove_in_reset hr hw]; rfl

/-- All that a command word can do with a next state: nothing for NOP and during reset, else the command is accepted. -/
theorem commandMove_next {w : BitVec 34} {s t : State} (h : commandMove w s = .next t) :
    ((commandCode w = 0 ∨ s.inReset = true) ∧ t = s) ∨
    (s.inReset = false ∧ commandCode w = 1 ∧ s.ser.seq = .idle ∧
      t = { s with ser := beginInit s.ser }) ∨
    (s.inReset = false ∧ commandCode w = 2 ∧ s.ser.seq = .idle ∧
      commandOperand w ≤ Config.freqMaxHz ∧
      t = { s with ser := beginFrame (tuningWord (commandOperand w)) s.ser }) := by
  unfold commandMove at h
  rw [decodeSC_eq] at h
  by_cases h0 : commandCode w = 0
  · simp only [h0, if_true] at h
    rcases heldOff_next h nofun with ⟨_, rfl⟩ | ⟨_, h⟩
    · exact .inl ⟨.inl h0, rfl⟩
    · cases h; exact .inl ⟨.inl h0, rfl⟩
  by_cases h1 : commandCode w = 1
  · simp only [h1, if_true, one_ne_zero, if_false] at h
    rcases heldOff_next h nofun with ⟨hr, rfl⟩ | ⟨hr, h⟩
    · exact .inl ⟨.inr hr, rfl⟩
    · exact .inr (.inl ⟨hr, h1, accept_eq_next_iff.mp h⟩)
  by_cases h2 : commandCode w = 2
  · rw [if_neg h0, if_neg h1, if_pos h2] at h
    have hill : Instr.wellFormed (.load (BitVec.ofNat 32 w.toNat)) = false →
        exec (.load (BitVec.ofNat 32 w.toNat)) s ≠ .next t := by
      intro hf hn
      have := (acceptLoad_eq_next_iff.mp hn).2.1
      exact absurd this (of_decide_eq_false hf)
    rcases heldOff_next h hill with ⟨hr, rfl⟩ | ⟨hr, h⟩
    · exact .inl ⟨.inr hr, rfl⟩
    · exact .inr (.inr ⟨hr, h2, acceptLoad_eq_next_iff.mp h⟩)
  · simp [h0, h1, h2] at h

/-! ### The control loop -/

/-- All that the loop can do with a next state: wait inside the driver, issue INIT, issue the recommit's LOAD, or poll; during
reset what it issues has no effect on the block. -/
theorem loopMove_next {l : Look} {s t : State} (h : loopMove l s = .next t) :
    (s.ser.seq ≠ .idle ∧ t = s) ∨
    (s.ser.seq = .idle ∧ s.env.phase = .boot ∧
      t = { s with
        ser := if s.inReset then s.ser else beginInit s.ser
        env := { s.env with phase := .recommit } }) ∨
    (s.ser.seq = .idle ∧ s.env.phase = .recommit ∧
      loadFrequency s.env.tuning ≤ Config.freqMaxHz ∧
      t = { s with
        ser := if s.inReset then s.ser
          else beginFrame (tuningWord (loadFrequency s.env.tuning)) s.ser
        env := { s.env with phase := .poll, shown := some (displayItems s.env.tuning) } }) ∨
    (s.ser.seq = .idle ∧ s.env.phase = .poll ∧ t = pollMove l s) := by
  unfold loopMove at h
  by_cases hb : s.ser.seq = .idle
  · rw [if_neg (by simp [State.busy, hb])] at h
    cases hp : s.env.phase with
    | boot =>
      simp only [hp, onNext_eq_next_iff] at h
      obtain ⟨u, hu, rfl⟩ := h
      rcases heldOff_next hu nofun with ⟨hr, rfl⟩ | ⟨hr, hu⟩
      · exact .inr (.inl ⟨hb, rfl, by simp [hr]⟩)
      · obtain ⟨_, rfl⟩ := accept_eq_next_iff.mp hu
        exact .inr (.inl ⟨hb, rfl, by simp [hr]⟩)
    | recommit =>
      simp only [hp, recommitMove, onNext_eq_next_iff] at h
      obtain ⟨u, hu, rfl⟩ := h
      by_cases hf : loadFrequency s.env.tuning ≤ Config.freqMaxHz
      · rcases heldOff_next hu (by simp [hf]) with ⟨hr, rfl⟩ | ⟨hr, hu⟩
        · exact .inr (.inr (.inl ⟨hb, rfl, hf, by simp [hr]⟩))
        · obtain ⟨_, _, rfl⟩ := acceptLoad_eq_next_iff.mp hu
          exact .inr (.inr (.inl ⟨hb, rfl, hf, by simp [hr]⟩))
      · simp [heldOff, hf, acceptLoad, State.busy, hb] at hu
    | poll =>
      simp only [hp] at h
      cases h; exact .inr (.inr (.inr ⟨hb, rfl, rfl⟩))
  · rw [if_pos (by simp [State.busy, hb])] at h
    cases h; exact .inl ⟨hb, rfl⟩

/-- What polling can do to the environment: change the bookkeeping alone, or make one mutation. -/
theorem pollMove_tuning (l : Look) (s : State) :
    (pollMove l s).env.tuning = s.env.tuning ∨
      ∃ c, (pollMove l s).env.tuning = mutation s.params.bands c s.env.tuning := by
  have pay : ∀ u : State, ∃ c, (payStep u).env.tuning = mutation u.params.bands c u.env.tuning :=
    fun u => ⟨.applyStep (stepOfSign u.env.owed), rfl⟩
  unfold pollMove
  split
  · exact .inr (pay s)
  · cases l with
    | position =>
      simp only [readPosition]
      split
      · exact .inr (pay _)
      · exact .inl rfl
    | bandButton =>
      dsimp only
      split
      · exact .inr ⟨.changeBand, rfl⟩
      · exact .inl rfl
    | modeButton =>
      dsimp only
      split
      · exact .inr ⟨.changeMode, rfl⟩
      · exact .inl rfl

end Sys2Proof.Machine
end

