-- ==== Sys2Proof/Laws/PerInstr.lean ====
section
/-! SUPPORT. Statements made of every instruction, one lemma per constructor: the word of an instruction fits its format
(30_encoding.md R50). -/

namespace Sys2Proof.Laws

/-- A 32-bit operand under a command code below 4 fits 34 bits. -/
theorem operand_fits (k : Nat) (f : BitVec 32) (hk : k ≤ 3) : k * 2 ^ 32 + f.toNat < 2 ^ 34 := by
  have := f.isLt
  omega

end Sys2Proof.Laws

namespace Sys2Proof.Laws.EncodeFits

open Sys2Proof

/-- The encoding of an instruction fits the width of its format (30_encoding.md R50). -/
def Statement (i : Instr) : Prop := encode i < 2 ^ i.format.width

theorem edgeA (v : Snapshot) : Statement (.edgeA v) := by
  have := v.isLt
  simp only [Statement, encode, Instr.format, Format.width]
  omega

theorem edgeB (v : Snapshot) : Statement (.edgeB v) := by
  have := v.isLt
  simp only [Statement, encode, Instr.format, Format.width]
  omega

theorem nop (x : BitVec 32) : Statement (.nop x) := by
  simpa [Statement, encode, Instr.format, Format.width] using operand_fits 0 x (by decide)

theorem init (x : BitVec 32) : Statement (.init x) := by
  simpa [Statement, encode, Instr.format, Format.width] using operand_fits 1 x (by decide)

theorem load (f : Hertz) : Statement (.load f) := operand_fits 2 f (by decide)

theorem stepNone : Statement .stepNone := by
  unfold Statement
  decide

theorem stepInc : Statement .stepInc := by
  unfold Statement
  decide

theorem stepDec : Statement .stepDec := by
  unfold Statement
  decide

theorem frame (w : TuningWord) : Statement (.frame w) := by
  have h : w.toNat < 2 ^ 32 := w.isLt
  simp only [Statement, encode, Instr.format, Format.width, Config.ctrlByte]
  simp
  omega

theorem d0 : Statement .d0 := by
  unfold Statement
  decide

theorem d1 : Statement .d1 := by
  unfold Statement
  decide

theorem c0 : Statement .c0 := by
  unfold Statement
  decide

theorem c1 : Statement .c1 := by
  unfold Statement
  decide

theorem u0 : Statement .u0 := by
  unfold Statement
  decide

theorem u1 : Statement .u1 := by
  unfold Statement
  decide

theorem x0 : Statement .x0 := by
  unfold Statement
  decide

theorem x1 : Statement .x1 := by
  unfold Statement
  decide

end Sys2Proof.Laws.EncodeFits
end

