-- ==== Sys2Proof/Laws/Step.lean ====
section
/-! SUPPORT. What one step can do, part by part: the inversion lemmas that later proofs cite instead of unfolding `step`. -/

namespace Sys2Proof.Machine

open Sys2Proof

/-- What a step can do to DDSSER and the receiver. -/
inductive SerializerMove (s t : State) : Prop
  /-- nothing -/
  | same (hs : t.ser = s.ser) (hr : t.rx = s.rx)
  /-- one micro-step, the receiver reacting to the write that was due -/
  | micro (e : PinEntry) (due : dueWrite s.ser = some e)
      (hs : t.ser = advance (driveLine s.ser e)) (hr : t.rx = observe s.ser e s.rx)
  /-- INIT accepted -/
  | init (live : s.inReset = false) (idle : s.ser.seq = .idle) (hs : t.ser = beginInit s.ser) (hr : t.rx = s.rx)
  /-- a LOAD accepted -/
  | load (f : Nat) (live : s.inReset = false) (idle : s.ser.seq = .idle) (hf : f ≤ Config.freqMaxHz)
      (hs : t.ser = beginFrame (tuningWord f) s.ser) (hr : t.rx = s.rx)
  /-- the block's reset -/
  | reset (hs : t.ser = .afterReset) (hr : t.rx = s.rx)

/-- What a step can do to QDEC, whose `STEP` port is quiet first. -/
inductive DecoderMove (s t : State) : Prop
  /-- nothing but the quiet `STEP` port -/
  | same (hq : t.qdec = noStep s.qdec)
  /-- the operation of a QE word, presented at the event level -/
  | edge (w : BitVec 3) (live : s.inReset = false) (hq : t.qdec = edgeOf s.params w (noStep s.qdec))
  /-- the service of line A's notification -/
  | serviceA (hp : s.qdec.pendA = true)
      (hq : t.qdec = edgeAOf s.params s.snapshot { noStep s.qdec with pendA := false })
  /-- the service of line B's notification -/
  | serviceB (hp : s.qdec.pendB = true)
      (hq : t.qdec = edgeBOf s.params s.snapshot { noStep s.qdec with pendB := false })
  /-- the lines were set and their rising edges captured -/
  | lines (a b : Level)
      (hq : t.qdec = { noStep s.qdec with
        pendA := captureEdge (!s.inReset) s.qdec.pendA s.env.encA a
        pendB := captureEdge (!s.inReset) s.qdec.pendB s.env.encB b })
  /-- the block's reset -/
  | reset (hq : t.qdec = .afterReset s.qdec.pos.width)

/-- What a step can do to the tuning state. -/
inductive TuningMove (s t : State) : Prop
  | same (hu : t.env.tuning = s.env.tuning)
  | mutated (c : Call) (hu : t.env.tuning = mutation s.params.bands c s.env.tuning)

/-- What a step can do to the block's reset input. -/
inductive ResetMove (s t : State) : Prop
  | same (hi : t.inReset = s.inReset)
  /-- reset is applied, and the block takes its values -/
  | applied (hi : t.inReset = true) (hq : t.qdec = .afterReset s.qdec.pos.width)
      (hs : t.ser = .afterReset)
  /-- reset ends -/
  | ended (hi : t.inReset = false)

/-- All that a step does, part by part. -/
structure StepEffect (s t : State) : Prop where
  params : t.params = s.params
  reset : ResetMove s t
  serializer : SerializerMove s t
  decoder : DecoderMove s t
  tuning : TuningMove s t

/-- What is supplied next is no part of a step's effect. -/
theorem StepEffect.with_inputs {s t : State} (h : StepEffect s t) (es : List Event) :
    StepEffect s { t with inputs := es } where
  params := h.params
  reset := by
    cases h.reset with
    | same hi => exact .same hi
    | applied hi hq hs => exact .applied hi hq hs
    | ended hi => exact .ended hi
  serializer := by
    cases h.serializer with
    | same hs hr => exact .same hs hr
    | micro e due hs hr => exact .micro e due hs hr
    | init live idle hs hr => exact .init live idle hs hr
    | load f live idle hf hs hr => exact .load f live idle hf hs hr
    | reset hs hr => exact .reset hs hr
  decoder := by
    cases h.decoder with
    | same hq => exact .same hq
    | edge w live hq => exact .edge w live hq
    | serviceA hp hq => exact .serviceA hp hq
    | serviceB hp hq => exact .serviceB hp hq
    | lines a b hq => exact .lines a b hq
    | reset hq => exact .reset hq
  tuning := by
    cases h.tuning with
    | same hu => exact .same hu
    | mutated c hu => exact .mutated c hu

/-- A state whose DDSSER, receiver and tuning state are those of `s` and whose QDEC is `s`'s with a quiet port. -/
structure Quieted (s u : State) : Prop where
  params : u.params = s.params
  inReset : u.inReset = s.inReset
  ser : u.ser = s.ser
  rx : u.rx = s.rx
  env : u.env = s.env
  qdec : u.qdec = noStep s.qdec

theorem quietStep_quieted (s : State) (es : List Event) :
    Quieted s (quietStep { s with inputs := es }) := ⟨rfl, rfl, rfl, rfl, rfl, rfl⟩

theorem Quieted.effect {s u : State} (h : Quieted s u) : StepEffect s u where
  params := h.params
  reset := .same h.inReset
  serializer := .same h.ser h.rx
  decoder := .same h.qdec
  tuning := .same (by rw [h.env])

theorem Quieted.micro {s u t : State} (h : Quieted s u) (hm : microMove u = .next t) :
    StepEffect s t := by
  rw [microMove_eq] at hm
  cases hm
  refine ⟨h.params, .same h.inReset, ?_, .same h.qdec, .same (by simp [h.env])⟩
  cases hd : dueWrite s.ser with
  | none => exact .same (by simp [microStep, hd, h.ser]) (by simp [hd, h.ser, h.rx])
  | some e => exact .micro e hd (by simp [microStep, hd, h.ser]) (by simp [hd, h.ser, h.rx])

theorem Quieted.service_a {s u t : State} (h : Quieted s u) (hm : serviceMoveA u = .next t) :
    StepEffect s t := by
  rw [serviceMoveA_eq] at hm
  cases hm
  refine ⟨h.params, .same h.inReset, .same h.ser h.rx, ?_, .same (by simp [h.env])⟩
  cases hp : s.qdec.pendA with
  | false => exact .same (by simp [h.qdec, hp])
  | true => exact .serviceA hp (by simp [State.snapshot, h.qdec, h.params, h.env, hp])

theorem Quieted.service_b {s u t : State} (h : Quieted s u) (hm : serviceMoveB u = .next t) :
    StepEffect s t := by
  rw [serviceMoveB_eq] at hm
  cases hm
  refine ⟨h.params, .same h.inReset, .same h.ser h.rx, ?_, .same (by simp [h.env])⟩
  cases hp : s.qdec.pendB with
  | false => exact .same (by simp [h.qdec, hp])
  | true => exact .serviceB hp (by simp [State.snapshot, h.qdec, h.params, h.env, hp])

theorem Quieted.command {s u t : State} {w : BitVec 34} (h : Quieted s u)
    (hm : commandMove w u = .next t) : StepEffect s t := by
  have hi : u.ser.seq = .idle → s.ser.seq = .idle := by rw [h.ser]; exact id
  have hl : u.inReset = false → s.inReset = false := by rw [h.inReset]; exact id
  rcases commandMove_next hm with ⟨_, rfl⟩ | ⟨hr, _, hid, rfl⟩ | ⟨hr, _, hid, hf, rfl⟩
  · exact h.effect
  · exact ⟨h.params, .same h.inReset, .init (hl hr) (hi hid) (by simp [h.ser]) h.rx, .same h.qdec,
      .same (by simp [h.env])⟩
  · exact ⟨h.params, .same h.inReset, .load _ (hl hr) (hi hid) hf (by simp [h.ser]) h.rx, .same h.qdec,
      .same (by simp [h.env])⟩

theorem Quieted.loop {s u t : State} {l : Look} (h : Quieted s u) (hm : loopMove l u = .next t) :
    StepEffect s t := by
  have hi : u.ser.seq = .idle → s.ser.seq = .idle := by rw [h.ser]; exact id
  have hl : u.inReset = s.inReset := h.inReset
  rcases loopMove_next hm with ⟨_, rfl⟩ | ⟨hid, _, rfl⟩ | ⟨hid, _, hf, rfl⟩ | ⟨hid, _, rfl⟩
  · exact h.effect
  · refine ⟨h.params, .same h.inReset, ?_, .same h.qdec, .same (by simp [h.env])⟩
    cases hr : u.inReset with
    | true => exact .same (by simp [h.ser]) h.rx
    | false => exact .init (hl ▸ hr) (hi hid) (by simp [h.ser]) h.rx
  · refine ⟨h.params, .same h.inReset, ?_, .same h.qdec, .same (by simp [h.env])⟩
    cases hr : u.inReset with
    | true => exact .same (by simp [h.ser]) h.rx
    | false => exact .load _ (hl ▸ hr) (hi hid) hf (by simp [h.ser]) h.rx
  · refine ⟨by simp [h.params], .same (by simp [h.inReset]), .same (by simp [h.ser]) (by simp [h.rx]), .same (by simp [h.qdec]), ?_⟩
    rcases pollMove_tuning l u with hu | ⟨c, hu⟩
    · exact .same (by rw [hu, h.env])
    · exact .mutated c (by rw [hu, h.env, h.params])

theorem Quieted.event {s u t : State} {e : Event} (h : Quieted s u) (hm : eventMove e u = .next t) :
    StepEffect s t := by
  cases e with
  | qe w =>
    rw [eventMove, presentMove_decodeQE] at hm
    cases hr : u.inReset with
    | true => simp only [hr, if_true] at hm; cases hm; exact h.effect
    | false =>
      simp only [hr] at hm
      cases hm
      exact ⟨h.params, .same h.inReset, .same h.ser h.rx,
        .edge w (h.inReset ▸ hr) (by simp [h.qdec, h.params]), .same (by simp [h.env])⟩
  | sc w => exact h.command hm
  | lines a b =>
    cases hm
    refine ⟨h.params, .same h.inReset, .same h.ser h.rx, .lines a b ?_, .same ?_⟩
    · simp [setLines, h.qdec, h.env, h.inReset]
    · simp [setLines, h.env]
  | serviceA => exact h.service_a hm
  | serviceB => exact h.service_b hm
  | micro => exact h.micro hm
  | run =>
    simp only [eventMove, runMove] at hm
    split at hm
    · obtain ⟨v, hv, rfl⟩ := onNext_eq_next_iff.mp hm
      have key := h.micro hv
      split
      · exact key.with_inputs _
      · exact key
    · cases hm; exact h.effect
  | blockReset applied =>
    cases applied with
    | true =>
      cases hm
      exact ⟨h.params, .applied rfl (by simp [h.qdec]) rfl, .reset rfl h.rx, .reset (by simp [h.qdec]),
        .same (by simp [h.env])⟩
    | false =>
      cases hm
      exact ⟨h.params, .ended rfl, .same h.ser h.rx, .same h.qdec, .same (by simp [h.env])⟩
  | press b =>
    cases hm
    exact ⟨by simp [h.params], .same (by simp [h.inReset]), .same (by simp [h.ser]) (by simp [h.rx]), .same (by simp [h.qdec]),
      .same (by simp [h.env])⟩
  | release b =>
    cases hm
    exact ⟨by simp [h.params], .same (by simp [h.inReset]), .same (by simp [h.ser]) (by simp [h.rx]), .same (by simp [h.qdec]),
      .same (by simp [h.env])⟩
  | call c =>
    simp only [eventMove, callMove] at hm
    split at hm
    · cases hm
    · cases hm
      exact ⟨by simp [h.params], .same (by simp [h.inReset]), .same (by simp [h.ser]) (by simp [h.rx]), .same (by simp [h.qdec]),
        .mutated c (by simp [h.env, h.params])⟩
  | loop l => exact h.loop hm

theorem Quieted.own {s u t : State} (h : Quieted s u) (hm : ownMove u = .next t) : StepEffect s t := by
  have hd : Quieted s { u with draws := u.draws + 1 } := ⟨h.params, h.inReset, h.ser, h.rx, h.env, h.qdec⟩
  unfold ownMove at hm
  split at hm
  · dsimp only at hm
    split at hm
    · exact hd.service_a hm
    · exact hd.service_b hm
  · split at hm
    · exact h.service_a hm
    · split at hm
      · exact h.service_b hm
      · split at hm
        · exact h.micro hm
        · cases hm; exact h.effect

/-- What a step can do when it answers a next state. -/
theorem step_effect {s t : State} (h : step s = .next t) : StepEffect s t := by
  unfold step at h
  split at h
  · exact Quieted.own (quietStep_quieted s s.inputs) h
  · exact Quieted.event (quietStep_quieted s _) h

end Sys2Proof.Machine
end

