-- ==== Sys2Proof/Tests/Slice0.lean ====
section
/-! SUPPORT. The model's own tests: words written out from the spec's encodings, one step each of the operations with the
expected results of 95_test_vectors.md and 40_qdec.md R75, and for each statement with hypotheses a state that meets them. -/

namespace Sys2Proof.Tests

open Sys2Proof Sys2Proof.Machine

/-! ### A small machine -/

/-- An example band table: 42_tuning_context.md R121's two rows, and rows of the tester's own for the open four. -/
def benchBands : BandTable where
  m10  := ⟨28000, 28000, 29700⟩
  m15  := ⟨21000, 21000, 21450⟩
  m20  := ⟨14000, 14000, 14350⟩
  m40  := ⟨7000, 7000, 7300⟩
  m80  := ⟨3500, 3500, 4000⟩
  m160 := ⟨1800, 1800, 2000⟩

/-- The machine after reset with an 8-bit `pos` (the width 95_test_vectors.md uses) and the example band table. -/
def bench : State where
  params := ⟨Config.armA, Config.armB, true, benchBands⟩
  inReset := false
  inputs := []
  draws := 0
  qdec := .afterReset 8
  ser := .afterReset
  rx := .start
  env := { Environment.start with lastPos := ⟨8, 0⟩ }

/-- The example band table meets the table's invariant (42_tuning_context.md R120, R121). -/
theorem benchBands_ok : BandTable.ok benchBands := fun b => by
  cases b <;> (unfold BandRow.ok; decide)

/-- The bench with something supplied. -/
def supplied (es : List Event) : State := { bench with inputs := es }

/-- The bench with QDEC's two flags and `pos` given. -/
def withFlags (a b : Bool) (p : BitVec 8) : State :=
  { bench with qdec := { bench.qdec with expectA := a, expectB := b, pos := ⟨8, p⟩ } }

/-- The bench with `seq` and the held frame given. -/
def atPlace (q : Seq) (F : Frame) : State := { bench with ser := { bench.ser with seq := q, shreg := F } }

/-- The bench with the block's reset applied. -/
def inReset (es : List Event) : State := { supplied es with inReset := true }

/-- The state an answer goes on to, if it does. -/
def going (o : Answer) : Option State :=
  match o with
  | .next t => some t
  | _ => none

/-- The refusal an answer stops with, if it does. -/
def refusal (o : Answer) : Option Refusal :=
  match o with
  | .refused r => some r
  | _ => none

/-- QDEC's result as 95_test_vectors.md writes it: `STEP`, the flags, `pos`. -/
def decoderResult (o : Answer) : Option (BitVec 2 × Bool × Bool × PosCounter) :=
  (going o).map fun t => (t.qdec.stepOut, t.qdec.expectA, t.qdec.expectB, t.qdec.pos)

/-- DDSSER's four lines and its place. -/
def serializerResult (o : Answer) : Option (List Level × Seq) :=
  (going o).map fun t => ([t.ser.data, t.ser.clk, t.ser.fqUd, t.ser.reset], t.ser.seq)

/-! ### Words written out (30_encoding.md R51 to R60) -/

/-- QE: bit 2 the line, bit 1 the level of A, bit 0 the level of B. -/
theorem test_words_qe :
    decode .qe 0b000 = .ok (.edgeA 0b00#2) ∧ decode .qe 0b001 = .ok (.edgeA 0b01#2) ∧
    decode .qe 0b010 = .ok (.edgeA 0b10#2) ∧ decode .qe 0b111 = .ok (.edgeB 0b11#2) ∧
    decode .qe 0b101 = .ok (.edgeB 0b01#2) := by decide

/-- SC, 34 bits: `cmd` in 33:32, the operand in 31:0 (95_test_vectors.md section 3). -/
theorem test_words_sc :
    decode .sc 0b00_00000000000000000000000000000000 = .ok (.nop 0#32) ∧
    decode .sc 0b01_00000000000000000000000000000000 = .ok (.init 0#32) ∧
    decode .sc 0b10_00000000110101011001111110000000 = .ok (.load 14000000#32) ∧
    decode .sc 0x203B9ACA0 = .ok (.load 62500000#32) ∧
    decode .sc 0b11_00000000000000000000000000000000 = .error .reservedCommand := by decide

theorem test_words_so :
    decode .so 0b00 = .ok .stepNone ∧ decode .so 0b01 = .ok .stepInc ∧
    decode .so 0b11 = .ok .stepDec ∧ decode .so 0b10 = .error .stepCodeNeverProduced := by decide

/-- F40: the control byte in 39:32, the tuning word in 31:0. -/
theorem test_words_f40 :
    decode .f40 0b00000000_00011100101011000000100000110001 = .ok (.frame 0x1CAC0831#32) ∧
    decode .f40 0b00000001_00000000000000000000000000000000 = .error .controlByteNotZero := by decide

/-- PW: the line in 2:1, the level in bit 0. -/
theorem test_words_pw :
    [0b000, 0b001, 0b010, 0b011, 0b100, 0b101, 0b110, 0b111].map (decode .pw) =
      [.ok .d0, .ok .d1, .ok .c0, .ok .c1, .ok .u0, .ok .u1, .ok .x0, .ok .x1] := by decide

theorem test_words_too_wide :
    decode .qe 8 = .error .tooWide ∧ decode .sc 0x400000000 = .error .tooWide := by decide

/-- The host's word for a row: a byte goes to QDEC's port, five bytes to DDSSER's. -/
theorem test_table_words :
    decodeTableWord 8 0b110 = some (.edgeB 0b10#2) ∧
    decodeTableWord 40 0x200D59F80 = some (.load 14000000#32) ∧
    decodeTableWord 40 0x300000000 = none := by decide

/-! ### WellFormed refuses the ill-formed -/

/-- The one check: LOAD's range. -/
theorem test_wellFormed_refuses_load_out_of_range :
    Instr.wellFormed (.load 125000000#32) = false ∧ Instr.wellFormed (.load 4294967295#32) = false ∧
    Instr.wellFormed (.load 124999999#32) = true := by decide

/-! ### QDEC -/

/-- A row of R75: the snapshot, the flags before, the step code, the flags after. -/
abbrev EdgeRow := Snapshot × (Bool × Bool) × BitVec 2 × (Bool × Bool)

/-- The model gives an operation the row's step and flags. -/
def agrees (op : Snapshot → Instr) (r : EdgeRow) : Bool :=
  match going (exec (op r.1) (withFlags r.2.1.1 r.2.1.2 0)) with
  | some t => (t.qdec.stepOut, (t.qdec.expectA, t.qdec.expectB)) = (r.2.2.1, r.2.2.2) ∧ t.qdec.snap = r.1
  | none => false

/-- The whole table of EDGE_A (40_qdec.md R75). -/
theorem test_edgeA_table :
    ([(0, (false, false), 0, (false, false)), (0, (false, true), 0, (false, true)),
      (0, (true, false), 0, (true, false)), (0, (true, true), 0, (true, true)),
      (1, (false, false), 0, (false, true)), (1, (false, true), 0, (false, true)),
      (1, (true, false), 0, (true, true)), (1, (true, true), 0, (true, true)),
      (2, (false, false), 0, (false, false)), (2, (false, true), 0, (false, true)),
      (2, (true, false), 0, (true, false)), (2, (true, true), 0, (true, true)),
      (3, (false, false), 0, (false, false)), (3, (false, true), 0, (false, true)),
      (3, (true, false), 3, (false, false)), (3, (true, true), 3, (false, false))] :
        List EdgeRow).all (agrees Instr.edgeA) = true := by decide

/-- The whole table of EDGE_B (40_qdec.md R75). -/
theorem test_edgeB_table :
    ([(0, (false, false), 0, (false, false)), (0, (false, true), 0, (false, true)),
      (0, (true, false), 0, (true, false)), (0, (true, true), 0, (true, true)),
      (1, (false, false), 0, (false, false)), (1, (false, true), 0, (false, true)),
      (1, (true, false), 0, (true, false)), (1, (true, true), 0, (true, true)),
      (2, (false, false), 0, (true, false)), (2, (false, true), 0, (true, true)),
      (2, (true, false), 0, (true, false)), (2, (true, true), 0, (true, true)),
      (3, (false, false), 0, (false, false)), (3, (false, true), 1, (false, false)),
      (3, (true, false), 0, (true, false)), (3, (true, true), 1, (false, false))] :
        List EdgeRow).all (agrees Instr.edgeB) = true := by decide

/-- Q19 and Q8: the decrement wraps from -128 to +127, and clears both flags. -/
theorem test_edgeA_pos :
    decoderResult (exec (.edgeA 3) (withFlags true false 0x80)) = some (3, false, false, ⟨8, 0x7F⟩) ∧
    decoderResult (exec (.edgeA 3) (withFlags true true 0x05)) = some (3, false, false, ⟨8, 0x04⟩) := by
  decide

/-- Q18 and Q9: the increment wraps from +127 to -128, and clears both flags. -/
theorem test_edgeB_pos :
    decoderResult (exec (.edgeB 3) (withFlags false true 0x7F)) = some (1, false, false, ⟨8, 0x80⟩) ∧
    decoderResult (exec (.edgeB 3) (withFlags true true 0x05)) = some (1, false, false, ⟨8, 0x06⟩) := by
  decide

theorem test_step_codes :
    decoderResult (exec .stepNone (withFlags true false 5)) = some (0, true, false, ⟨8, 5⟩) ∧
    decoderResult (exec .stepInc (withFlags true true 5)) = some (1, false, false, ⟨8, 6⟩) ∧
    decoderResult (exec .stepDec (withFlags true true 0)) = some (3, false, false, ⟨8, 0xFF⟩) := by decide

/-- Q21: the service takes the levels at the service, not at the edge; lines A low, B high. -/
theorem test_service_reads_the_lines_now :
    decoderResult (step { supplied [.serviceA] with
      qdec := { bench.qdec with pendA := true }, env := { bench.env with encA := false } }) =
        some (0, false, true, ⟨8, 0⟩) := by decide

/-- Q23 and Q24: a second rise merges with the pending one, and a fall captures nothing. -/
theorem test_lines_capture :
    (going (step { supplied [.lines true true] with
      qdec := { bench.qdec with pendA := true }, env := { bench.env with encA := false } })).map
        (fun t => (t.qdec.pendA, t.qdec.pendB)) = some (true, false) ∧
    (going (step (supplied [.lines false false]))).map
        (fun t => (t.qdec.pendA, t.qdec.pendB)) = some (false, false) := by decide

/-- 70_reset_and_hazards.md R170: an edge during reset is not captured, and one right after its end is. -/
theorem test_reset_and_edges :
    (going (step { inReset [.lines true true] with env := { bench.env with encA := false } })).map
        (fun t => (t.qdec.pendA, t.env.encA)) = some (false, true) ∧
    (going (core.run 2 { inReset [.blockReset false, .lines true true] with
      env := { bench.env with encA := false } })).map (fun t => (t.qdec.pendA, t.inReset)) =
        some (true, false) := by decide

/-- 70_reset_and_hazards.md R170, 41_ddsser.md R107: reset abandons the command, and `RESET` goes low with no trace entry. -/
theorem test_reset_in_a_command :
    (going (step { atPlace (.init 1) 0 with
      inputs := [.blockReset true], ser := { bench.ser with seq := .init 1, reset := true } })).map
      (fun t => (t.ser, t.inReset)) = some (.afterReset, true) := by decide

/-- 30_encoding.md R59: a step code is gone from the port at the next step that emits nothing. -/
theorem test_step_port_is_transient :
    (going (step { supplied [.micro] with qdec := { bench.qdec with stepOut := 1 } })).map
      (fun t => t.qdec.stepOut) = some 0 := by decide

/-! ### DDSSER -/

/-- S6, and NOP while busy: nothing changes. -/
theorem test_nop :
    going (exec (.nop 0xDEADBEEF) (atPlace (.load 57) 0)) = some (atPlace (.load 57) 0) := by decide

/-- S7: INIT ignores its operand, and writes no pin at acceptance. -/
theorem test_init :
    serializerResult (step (supplied [.sc 0x1DEADBEEF])) =
      some ([false, false, false, false], .init 0) := by decide

/-- P5: LOAD 14 000 000 holds the frame 0x00_1CAC_0831. -/
theorem test_load :
    (going (step (supplied [.sc 0x200D59F80]))).map (fun t => (t.ser.seq, t.ser.shreg, t.ser.trace)) =
      some (.load 0, 0x001CAC0831, []) := by decide

/-- S1 to S5. -/
theorem test_refusals :
    refusal (step (supplied [.sc 0x207735940])) = some .frequencyOutOfRange ∧
    refusal (step (supplied [.sc 0x2FFFFFFFF])) = some .frequencyOutOfRange ∧
    refusal (step (supplied [.sc 0x300000000])) = some .reservedCommand ∧
    refusal (exec (.load 14000000) (atPlace (.load 57) 0)) = some .commandWhileBusy ∧
    (going (exec (.load 124999999) bench)).map (fun t => t.ser.shreg) = some 0xFFFFFFDE := by decide

theorem test_frame :
    (going (exec (.frame 0x1CAC0831) bench)).map (fun t => (t.ser.seq, t.ser.shreg)) =
      some (.load 0, 0x001CAC0831) := by decide

/-- Each trace code drives its line (30_encoding.md R60), from all low and from all high. -/
theorem test_pin_writes :
    [Instr.d1, .c1, .u1, .x1].map (fun i => serializerResult (exec i bench)) =
      [some ([true, false, false, false], .idle), some ([false, true, false, false], .idle),
       some ([false, false, true, false], .idle), some ([false, false, false, true], .idle)] ∧
    [Instr.d0, .c0, .u0, .x0].map (fun i => serializerResult (exec i { bench with
        ser := { bench.ser with data := true, clk := true, fqUd := true, reset := true } })) =
      [some ([false, true, true, true], .idle), some ([true, false, true, true], .idle),
       some ([true, true, false, true], .idle), some ([true, true, true, false], .idle)] := by decide

/-- P5: at `Load(48)` bit 16 of the frame, a 0, goes to `DATA`; at `Load(0)` bit 0, a 1. -/
theorem test_micro_data :
    serializerResult (step { atPlace (.load 48) 0x001CAC0831 with inputs := [.micro] }) =
      some ([false, false, false, false], .load 49) ∧
    serializerResult (step { atPlace (.load 0) 0x001CAC0831 with inputs := [.micro] }) =
      some ([true, false, false, false], .load 1) := by decide

/-- The last micro-step of each command ends it (41_ddsser.md R97). -/
theorem test_micro_ends :
    serializerResult (step { atPlace (.load 121) 0 with inputs := [.micro] }) =
      some ([false, false, false, false], .idle) ∧
    serializerResult (step { atPlace (.init 3) 0 with inputs := [.micro] }) =
      some ([false, false, false, false], .idle) := by decide

/-- A rising `CLK` shifts `DATA` in at bit 39; a second `C1` with `CLK` high does not (41_ddsser.md R108, R109). -/
theorem test_receiver_shift :
    (going (exec .c1 { bench with ser := { bench.ser with data := true } })).map (fun t => (t.rx.stage, t.rx.cnt)) =
      some (0x8000000000, 1) ∧
    (going (exec .c1 { bench with ser := { bench.ser with data := true, clk := true } })).map
      (fun t => (t.rx.stage, t.rx.cnt)) = some (0, 0) := by decide

/-- S11: `U1` after fewer than 40 clocks commits none, after 40 what is staged (41_ddsser.md R110). -/
theorem test_receiver_commit :
    (going (exec .u1 { bench with rx := ⟨7, 39, some 1⟩ })).map (fun t => t.rx.committed) = some none ∧
    (going (exec .u1 { bench with rx := ⟨7, 40, some 1⟩ })).map (fun t => t.rx.committed) =
      some (some 7) := by decide

/-- The tuning words of 95_test_vectors.md section 3. -/
theorem test_tuning_words :
    [0, 1, 1000, 7000000, 7300000, 14000000, 14001000, 14005000, 14350000, 16000000, 23000000, 29700000,
      38700000, 62500000, 124999999].map tuningNumber =
    [0, 34, 34360, 240518169, 250826090, 481036337, 481070697, 481208136, 493062246, 549755814, 790273982,
      1020484230, 1329721875, 2147483648, 4294967262] := by decide

/-! ### The environment -/

/-- VFO §8 item 1: 20 m wraps at both edges; inside, one kilohertz. -/
theorem test_apply_step :
    (applyStep .dec TuningState.start).display = 14350 ∧
    (applyStep .inc { TuningState.start with display := 14350 }).display = 14000 ∧
    (applyStep .inc TuningState.start).display = 14001 := by decide

/-- VFO §8 items 2, 3, 5 and 7. -/
theorem test_band_and_mode :
    changeBand benchBands { TuningState.start with display := 14005 } = ⟨.m40, .primary, 7000, 7000, 7300⟩ ∧
    changeMode benchBands ⟨.m40, .primary, 7123, 7000, 7300⟩ = ⟨.m40, .offsetExciter, 7000, 7000, 7300⟩ ∧
    Machine.translate ⟨.m40, .offsetExciter, 7000, 7000, 7300⟩ = 16000 ∧
    Machine.translate ⟨.m20, .offsetExciter, 14000, 14000, 14350⟩ = 23000 ∧ Machine.translate TuningState.start = 14000 := by
  decide

/-- The loop's start-up action is INIT, and its recommit is the LOAD of the translated frequency (R131, R173). -/
theorem test_loop :
    serializerResult (step (supplied [.loop .position])) =
      some ([false, false, false, false], .init 0) ∧
    (going (step { supplied [.loop .position] with
      env := { bench.env with phase := .recommit, tuning := ⟨.m40, .offsetExciter, 7000, 7000, 7300⟩ } })).map
      (fun t => (t.ser.seq, t.ser.shreg, t.env.phase)) = some (.load 0, 0x0020C49BA6, .poll) := by decide

/-- A tuning call inside the driver is refused (42_tuning_context.md R131). -/
theorem test_call_inside_driver :
    refusal (step { atPlace (.load 3) 0 with inputs := [.call .changeBand] }) = some .callInsideDriver := by
  decide

/-- The lines of a program (30_encoding.md R62; the words of 95_test_vectors.md P1 and P6). -/
theorem test_program_events :
    programEvents [.edgeA false true, .loadK 14000, .steps 2, .run, .call .changeBand] =
      some [.qe 0b001, .sc 0x200D59F80, .micro, .micro, .run, .call .changeBand] ∧
    programEvents [.load 4294967296] = none := by decide

/-! ### Each statement's hypotheses are met -/

/-- ADecodedWordIsItsInstructionsEncoding: a word of each format, the largest that decodes. -/
theorem witness_decoded_word :
    decode .qe 7 = .ok (.edgeB 3) ∧ decode .sc 0x2FFFFFFFF = .ok (.load 0xFFFFFFFF) ∧
    decode .so 3 = .ok .stepDec ∧ decode .f40 0xFFFFFFFF = .ok (.frame 0xFFFFFFFF) ∧
    decode .pw 7 = .ok .x1 := by decide

/-- ReservedWordsAreRejectedByName: the ends of each range. -/
theorem witness_reserved :
    decode .sc (3 * 2 ^ 32 + (2 ^ 32 - 1)) = .error .reservedCommand ∧
    decode .f40 (2 ^ 32) = .error .controlByteNotZero ∧
    decode .f40 (2 ^ 40 - 1) = .error .controlByteNotZero ∧ decode .f40 (2 ^ 40) = .error .tooWide := by
  decide

/-- AStepRunsTheDecodedInstruction: its three clauses, outside reset and in it, with a legal command and one out of range. -/
theorem witness_step_runs :
    (supplied [.qe 7, .run]).inputs = .qe 7 :: [.run] ∧ decode .qe (7 : BitVec 3).toNat = .ok (.edgeB 3) ∧
    (supplied [.sc 0x100000000]).inputs = .sc 0x100000000 :: [] ∧
    decode .sc (0x100000000 : BitVec 34).toNat = .ok (.init 0) ∧
    decode .sc (0x3FFFFFFFF : BitVec 34).toNat = .error .reservedCommand ∧
    bench.inReset = false ∧ (inReset [.qe 7]).inReset = true ∧ Instr.wellFormed (.init 0) = true ∧
    decode .sc (0x2FFFFFFFF : BitVec 34).toNat = .ok (.load 0xFFFFFFFF) ∧
    Instr.wellFormed (.load 0xFFFFFFFF) = false := by decide

/-- FlagsAreClearedExactlyByEmittedSteps: a flag cleared, and a step emitted. -/
theorem witness_flags_cleared :
    ∃ s t, exec (.edgeA 3) s = .next t ∧ s.qdec.expectA = true ∧ t.qdec.expectA = false ∧
      s.qdec.expectB = true ∧ t.qdec.expectB = false ∧ t.qdec.stepLog = s.qdec.stepLog ++ [.dec] :=
  ⟨withFlags true true 0, _, rfl, by decide⟩

/-- FlagsAreSetOnlyByArmingOperations: each flag set. -/
theorem witness_flags_set :
    (∃ s t, Params.literal s.params ∧ exec (.edgeA 1) s = .next t ∧ s.qdec.expectB = false ∧
      t.qdec.expectB = true) ∧
    (∃ s t, Params.literal s.params ∧ exec (.edgeB 2) s = .next t ∧ s.qdec.expectA = false ∧
      t.qdec.expectA = true) :=
  ⟨⟨bench, _, ⟨rfl, rfl⟩, rfl, by decide⟩, ⟨bench, _, ⟨rfl, rfl⟩, rfl, by decide⟩⟩

/-- EveryStepIsArmedSinceTheLastOne: P2's decrement and P1's increment. -/
theorem witness_armed_steps :
    Params.literal bench.params ∧ bench.qdec.expectA = false ∧ bench.qdec.expectB = false ∧
    (afterEdges bench ([0b110, 0b110, 0b010] ++ [0b011])).qdec.stepLog =
      (afterEdges bench [0b110, 0b110, 0b010]).qdec.stepLog ++ [.dec] ∧
    (afterEdges bench ([0b001] ++ [0b111])).qdec.stepLog = (afterEdges bench [0b001]).qdec.stepLog ++ [.inc] :=
  ⟨⟨rfl, rfl⟩, by decide⟩

/-- ARepeatedEdgeChangesNothingFurther, CoherentSnapshotsNeverEmitAStep: the document's literals, P4's snapshots. -/
theorem witness_bounce_and_hazard :
    bench.params.armA ≠ 3 ∧ bench.params.armB ≠ 3 ∧ Params.literal bench.params ∧
    bench.qdec.expectA = false ∧ bench.qdec.expectB = false ∧
    ∀ w ∈ [0b010#3, 0b111#3, 0b101#3, 0b011#3], coherent w = true :=
  ⟨by decide, by decide, ⟨rfl, rfl⟩, by decide⟩

/-- The bench with the literals exchanged (40_qdec.md R82). -/
def exchanged : State := { bench with params := { bench.params with armA := 2, armB := 1 } }

/-- ExchangedLiteralsDecodeTheIdealCycles. -/
theorem witness_exchanged :
    exchanged.params.armA = 2 ∧ exchanged.params.armB = 1 ∧ exchanged.qdec.expectA = false ∧
    exchanged.qdec.expectB = false := by decide

/-- AStepEmitsOnlyAtAnArmedDetent: a step that emits a decrement, and one that emits an increment. -/
theorem witness_step_emits :
    (∃ s t, step s = .next t ∧ t.qdec.stepLog = s.qdec.stepLog ++ [.dec]) ∧
    (∃ s t, step s = .next t ∧ t.qdec.stepLog = s.qdec.stepLog ++ [.inc]) :=
  ⟨⟨{ withFlags true false 0 with inputs := [.qe 3] }, _, rfl, by decide⟩,
   ⟨{ withFlags false true 0 with inputs := [.qe 7] }, _, rfl, by decide⟩⟩

/-- EveryStepKeepsPosTheSumOfSteps: a state with a step logged, about to emit another. -/
theorem witness_pos_sum :
    ∃ s t, DecoderInv s.params s.qdec ∧ step s = .next t ∧ t.qdec.stepLog = [.dec, .inc] :=
  ⟨{ withFlags false true 0xFF with
      inputs := [.qe 7]
      qdec := { (withFlags false true 0xFF).qdec with stepLog := [.dec] } },
    _, ⟨by decide, fun _ => by decide⟩, rfl, by decide⟩

/-- RisingEdgesAreCaptured, TheBlocksResetGivesEveryElementItsValue. -/
theorem witness_lines_and_reset :
    (supplied [.lines false true]).inputs = .lines false true :: [] ∧
    (supplied [.blockReset true, .run]).inputs = .blockReset true :: [.run] ∧
    (supplied [.blockReset false]).inputs = .blockReset false :: [] := by decide

/-- ServicePerformsTheEdgeOperation: its four clauses. -/
theorem witness_service :
    (∃ s : State, s.inputs = .serviceA :: [] ∧ s.qdec.pendA = true) ∧
    (∃ s : State, s.inputs = .serviceB :: [] ∧ s.qdec.pendB = true) ∧
    (∃ s : State, s.inputs = .serviceA :: [] ∧ s.qdec.pendA = false) ∧
    (∃ s : State, s.inputs = .serviceB :: [] ∧ s.qdec.pendB = false) :=
  ⟨⟨{ supplied [.serviceA] with qdec := { bench.qdec with pendA := true } }, by decide⟩,
   ⟨{ supplied [.serviceB] with qdec := { bench.qdec with pendB := true } }, by decide⟩,
   ⟨supplied [.serviceA], by decide⟩, ⟨supplied [.serviceB], by decide⟩⟩

/-- BothServiceOrdersAgreeUnlessBothFlagsAreSet: each flag in turn clear. -/
theorem witness_both_pending :
    ∀ a b : Bool, (a && b) = false → ∃ s : State, Params.literal s.params ∧ s.qdec.pendA = true ∧
      s.qdec.pendB = true ∧ s.qdec.expectA = a ∧ s.qdec.expectB = b ∧
      (s.qdec.expectA = false ∨ s.qdec.expectB = false) := by
  intro a b h
  refine ⟨{ withFlags a b 0 with qdec := { (withFlags a b 0).qdec with pendA := true, pendB := true } },
    ⟨rfl, rfl⟩, rfl, rfl, rfl, rfl, ?_⟩
  revert a b
  decide

/-- CommandsAreAcceptedWhenIdle, AFrameBeginsWhenIdle, CommandsAreRefusedWhenBusyOrOutOfRange: both sides of the range. -/
theorem witness_commands :
    bench.ser.seq = .idle ∧ (124999999#32).toNat ≤ 124999999 ∧ 124999999 < (125000000#32).toNat ∧
    (atPlace (.load 121) 0).ser.seq ≠ .idle ∧ (atPlace (.init 0) 0).ser.seq ≠ .idle := by decide

/-- TheReceiverActsOnRisingClkAndFqUdOnly: its three clauses. -/
theorem witness_receiver :
    (∃ t, exec (pinCode .clk true) bench = .next t) ∧ bench.ser.clk = false ∧
    (∃ t, exec (pinCode .fqUd true) bench = .next t) ∧ bench.ser.fqUd = false ∧
    (∃ t, exec (pinCode .reset true) bench = .next t) ∧
    PinEntry.mk .reset true ≠ ⟨.clk, true⟩ ∧ PinEntry.mk .reset true ≠ ⟨.fqUd, true⟩ :=
  ⟨⟨_, rfl⟩, rfl, ⟨_, rfl⟩, rfl, ⟨_, rfl⟩, by decide, by decide⟩

/-- AMicroStepIsTheTablesPinWrite: every row of the table at the ends of its range. -/
theorem witness_micro_rows (F : Frame) :
    MicroRow (.init 0) F ⟨.reset, true⟩ (.init 1) ∧ MicroRow (.init 1) F ⟨.reset, false⟩ (.init 2) ∧
    MicroRow (.init 2) F ⟨.clk, true⟩ (.init 3) ∧ MicroRow (.init 3) F ⟨.clk, false⟩ .idle ∧
    MicroRow (.load 0) F ⟨.data, F.getLsbD 0⟩ (.load 1) ∧
    MicroRow (.load 117) F ⟨.data, F.getLsbD 39⟩ (.load 118) ∧
    MicroRow (.load 118) F ⟨.clk, true⟩ (.load 119) ∧ MicroRow (.load 119) F ⟨.clk, false⟩ (.load 120) ∧
    MicroRow (.load 120) F ⟨.fqUd, true⟩ (.load 121) ∧ MicroRow (.load 121) F ⟨.fqUd, false⟩ .idle :=
  ⟨.init0 F, .init1 F, .init2 F, .init3 F, .dataBit F 0 (by decide) (by decide),
    .dataBit F 117 (by decide) (by decide), .clockHigh F 118 (by decide) (by decide),
    .clockLow F 119 (by decide) (by decide), .commitHigh F, .commitLow F⟩

/-- AMicroStepIsTheTablesPinWrite: a state at a row of the table, supplied with a micro-step. -/
theorem witness_micro_state :
    ∃ (s : State) (e : PinEntry) (q : Seq), s.inputs = .micro :: [] ∧ MicroRow s.ser.seq s.ser.shreg e q :=
  ⟨{ atPlace (.load 120) 0 with inputs := [.micro] }, _, _, rfl, .commitHigh 0⟩

/-- The statements of the tuning word: the ends of the range, and two frequencies in order. -/
theorem witness_frequencies : (0 : Nat) ≤ 124999999 ∧ (124999999 : Nat) ≤ 124999999 ∧ 0 < 124999999 := by
  decide

/-- InitSendsItsFourWrites. -/
theorem witness_init :
    let s := supplied [.sc 0x1DEADBEEF, .run]
    s.inputs = .sc 0x1DEADBEEF :: .run :: [] ∧ (0x1DEADBEEF : BitVec 34).toNat / 2 ^ 32 = 1 ∧
    s.ser.seq = .idle ∧ s.inReset = false := by decide

/-- TheWordIsSentLeastSignificantBitFirst, ALoadSendsItsFrameAndCommits: its clauses at the ends of the range. -/
theorem witness_load_sends :
    (∀ f : Hertz, ∃ s : State,
      s.inputs = .sc (BitVec.ofNat 34 (2 * 2 ^ 32 + f.toNat)) :: .run :: [] ∧ s.ser.seq = .idle ∧
        s.inReset = false) ∧
    (0#32).toNat ≤ 124999999 ∧ (124999999#32).toNat ≤ 124999999 ∧ 124999999 < (125000000#32).toNat :=
  ⟨fun f => ⟨supplied [.sc (BitVec.ofNat 34 (2 * 2 ^ 32 + f.toNat)), .run], rfl, rfl, rfl⟩, by decide⟩

/-- ALoadIsReceivedAsTheFrameOfItsWord, at the largest frequency. -/
theorem witness_load :
    let s := supplied [.sc (BitVec.ofNat 34 (encode (.load 124999999#32))), .run]
    s.inputs = .sc (BitVec.ofNat 34 (encode (.load 124999999#32))) :: .run :: [] ∧
    (124999999#32).toNat ≤ 124999999 ∧ s.ser.seq = .idle ∧ s.inReset = false ∧
    s.ser.clk = false ∧ s.ser.fqUd = false := by decide

/-- EveryStepKeepsTheLinesOnTheSequencer: a state inside a command, `CLK` high, that takes a micro-step. -/
theorem witness_lines :
    ∃ s t, SerializerInv s.ser ∧ step s = .next t ∧ s.ser.clk = true ∧ t.ser.clk = false :=
  ⟨{ atPlace (.load 2) 1 with
      inputs := [.micro], ser := { bench.ser with seq := .load 2, shreg := 1, data := true, clk := true } },
    _, ⟨by unfold ControlByteZero; decide, fun l => by cases l <;> decide⟩, rfl, by decide⟩

/-- EveryStepKeepsTheTraceWholeCommands: INIT sent, a LOAD of 0 Hz accepted, its first write to come. -/
theorem witness_trace :
    ∃ s t, TraceOfCommands s.ser ∧ step s = .next t ∧
      t.ser.trace = [⟨.reset, true⟩, ⟨.reset, false⟩, ⟨.clk, true⟩, ⟨.clk, false⟩, ⟨.data, false⟩] :=
  ⟨{ bench with inputs := [.micro], ser := { bench.ser with seq := .load 0, trace := initTrace } }, _,
    ⟨⟨[.init], by simp [Sent.legal], by rfl⟩, fun _ _ => ⟨0, by decide, by decide⟩⟩, rfl, by decide⟩

/-- OnlyTheCommitPulseChangesTheOutput: 40 bits staged, and 39. -/
theorem witness_commit :
    ∀ n ∈ [39, 40], ∃ s t, step s = .next t ∧ s.rx.cnt = n ∧ t.rx.committed ≠ s.rx.committed := by
  intro n hn
  refine ⟨{ atPlace (.load 120) 0 with inputs := [.micro], rx := ⟨7, n, some 1⟩ }, _, rfl, rfl, ?_⟩
  revert n
  decide

/-- DataIsStableOverTheClockPulse: a data micro-step that changes `DATA`. -/
theorem witness_data :
    ∃ s t, SerializerInv s.ser ∧ step s = .next t ∧ s.inputs.head? ≠ some (.blockReset true) ∧
      t.ser.data ≠ s.ser.data :=
  ⟨{ atPlace (.load 0) 1 with inputs := [.micro] }, _,
    ⟨by unfold ControlByteZero; decide, fun l => by cases l <;> decide⟩, rfl, by decide, by decide⟩

/-- TheUnitsShareNoState: an instruction of each format that goes on. -/
theorem witness_units :
    ∀ i ∈ [Instr.edgeA 3, .stepInc, .load 14000000, .frame 1, .u1], ∃ t, exec i bench = .next t := by
  intro i hi
  simp only [List.mem_cons, List.not_mem_nil, or_false] at hi
  rcases hi with rfl | rfl | rfl | rfl | rfl <;> exact ⟨_, rfl⟩

/-- InterleavingChangesNeitherTraceNorStepLog: events of both units, every kind. -/
theorem witness_interleaving :
    ∀ e ∈ [Event.micro, .qe 1, .micro, .lines false true, .serviceA, .serviceB],
      e = .micro ∨ e.decoderSide = true := by decide

/-- ASuppliedRunEndsQuiescent: nothing supplied, both notifications pending, a LOAD at its start. -/
theorem witness_quiescent :
    ∃ s : State, s.inputs = [] ∧ ¬ s.quiescent ∧ s.ser.seq = .load 0 :=
  ⟨{ atPlace (.load 0) 0 with qdec := { bench.qdec with pendA := true, pendB := true } }, rfl,
    by unfold State.quiescent; decide, rfl⟩

/-- ApplyStepMovesOneKilohertzAndWraps: below the minimum, above the maximum, and at both ends inside. -/
theorem witness_apply_step :
    (supplied [.call (.applyStep .dec)]).inputs = .call (.applyStep .dec) :: [] ∧ bench.ser.seq = .idle ∧
    ((14000 : Nat) : Int) + -1 < (14000 : Nat) ∧
    (((14000 : Nat) : Int) ≤ (14350 : Nat) + 1 ∧ ((14350 : Nat) : Int) < (14350 : Nat) + 1) ∧
    (((14000 : Nat) : Int) ≤ (14001 : Nat) + -1 ∧ ((14349 : Nat) : Int) + 1 ≤ (14350 : Nat)) := by decide

/-- The tuning statements: idle, and a tuning state within its band at either end. -/
theorem witness_tuning :
    bench.ser.seq = .idle ∧ TuningInv bench.params bench.env.tuning ∧
    TuningInv bench.params { bench.env.tuning with display := 14350 } :=
  ⟨rfl, ⟨benchBands_ok, by decide⟩,
    ⟨benchBands_ok, by decide⟩⟩

/-- TheTranslatorAddsTheOffsetInExciterMode: each mode. -/
theorem witness_modes :
    TuningState.start.mode = .primary ∧ ({ TuningState.start with mode := .offsetExciter }).mode = .offsetExciter := by
  decide

/-- TheLoopRecommitsTheTranslatedFrequency, in OffsetExciter mode at the largest frequency of the table, outside reset and in
it. -/
theorem witness_recommit :
    ∀ r : Bool, ∃ s : State, s.inputs = .loop .bandButton :: [] ∧ s.ser.seq = .idle ∧
      s.env.phase = .recommit ∧ TuningInv s.params s.env.tuning ∧
      loadFrequency s.env.tuning = 38700000 ∧ s.inReset = r :=
  fun r => ⟨{ supplied [.loop .bandButton] with
      inReset := r
      env := { bench.env with phase := .recommit, tuning := ⟨.m10, .offsetExciter, 29700, 28000, 29700⟩ } },
    rfl, rfl, rfl, ⟨benchBands_ok, rfl, rfl, (by decide : 28000 ≤ 29700), (by decide : 29700 ≤ 29700)⟩,
    (by decide : loadFrequency ⟨.m10, .offsetExciter, 29700, 28000, 29700⟩ = 38700000), rfl⟩

/-- TheLoopAppliesTheDifferenceOfPos: a difference of 0, of +1 and of -1 over the wrap of the counter, with a `pos` and without,
and with 0, 1, 2 and -1 calls owed. -/
theorem witness_difference :
    ∀ (n : BitVec 8 × BitVec 8) (h : Bool) (k : Int), ∃ s : State,
      s.inputs = .loop .position :: [] ∧ s.ser.seq = .idle ∧ s.env.phase = .poll ∧ s.env.owed = k ∧
      s.params.hasPos = h ∧ s.env.lastPos = ⟨8, n.1⟩ ∧ s.qdec.pos = ⟨8, n.1 + n.2⟩ :=
  fun n h k => ⟨{ supplied [.loop .position] with
    params := { bench.params with hasPos := h }
    env := { bench.env with phase := .poll, owed := k, lastPos := ⟨8, n.1⟩ }
    qdec := { bench.qdec with pos := ⟨8, n.1 + n.2⟩ } }, rfl, rfl, rfl, rfl, rfl, rfl, rfl⟩

/-- A turn of the loop that owes one step of -1 pays it, whatever it looks at (42_tuning_context.md R135). -/
theorem test_owed_step_is_paid :
    (going (step { supplied [.loop .bandButton] with
      env := { bench.env with phase := .poll, owed := -1, bandButton := true } })).map
      (fun t => (t.env.tuning.display, t.env.owed, t.env.bandButton, t.env.phase)) =
      some (14350, 0, true, .recommit) := by decide

/-- A look at an unpressed mode button calls nothing (42_tuning_context.md R133). -/
theorem test_unpressed_mode_button :
    (going (step { supplied [.loop .modeButton] with env := { bench.env with phase := .poll } })).map
      (fun t => (t.env.tuning.mode, t.env.phase)) = some (.primary, .poll) := by decide

/-- EveryStepKeepsTheBlockAtRestInReset: a command supplied during reset. -/
theorem witness_reset_rest :
    ∃ s t, State.restsInReset s ∧ s.inReset = true ∧ step s = .next t ∧ s.inputs = .sc 0x100000000 :: [] :=
  ⟨inReset [.sc 0x100000000], _, fun _ => ⟨rfl, rfl⟩, rfl, rfl, rfl⟩

/-- APressMakesOneCall. -/
theorem witness_press :
    ∃ s : State, s.ser.seq = .idle ∧ s.env.phase = .poll ∧ s.env.owed = 0 :=
  ⟨{ bench with env := { bench.env with phase := .poll } }, rfl, rfl, rfl⟩

/-- EveryStepKeepsTheDisplayInItsBand: a call that wraps at the band's edge. -/
theorem witness_display :
    ∃ s t, TuningInv s.params s.env.tuning ∧ step s = .next t ∧ t.env.tuning.display = 14350 :=
  ⟨supplied [.call (.applyStep .dec)], _,
    ⟨benchBands_ok, by decide⟩, rfl, by decide⟩

end Sys2Proof.Tests
end

section
/-! The values after reset meet what every step keeps (10_state.md R24, 42_tuning_context.md R121, R125). -/

namespace Sys2Proof.Machine

open Sys2Proof

/-! ### The band table -/

/-- Each of a row's three numbers is a remainder that the one before it bounds. -/
theorem BandRow.within_ok (n : Nat × Nat × Nat) : BandRow.ok (.within n) := by
  have hmax : (BandRow.within n).max ≤ Config.bandMaxKHz :=
    Nat.le_of_lt_succ (Nat.mod_lt _ (Nat.succ_pos _))
  have hmin : (BandRow.within n).min ≤ (BandRow.within n).max :=
    Nat.le_of_lt_succ (Nat.mod_lt _ (Nat.succ_pos _))
  have hspan : n.2.2 % ((BandRow.within n).max - (BandRow.within n).min + 1) ≤
      (BandRow.within n).max - (BandRow.within n).min :=
    Nat.le_of_lt_succ (Nat.mod_lt _ (Nat.succ_pos _))
  have hdflt : (BandRow.within n).dflt ≤ (BandRow.within n).max := calc
    (BandRow.within n).dflt
      ≤ (BandRow.within n).min + ((BandRow.within n).max - (BandRow.within n).min) :=
        Nat.add_le_add_left hspan _
    _ = (BandRow.within n).max := Nat.add_sub_cancel' hmin
  exact ⟨Nat.le_add_right _ _, hdflt, hmax⟩

/-- 20 m and 40 m are the document's numbers; every other row is made by `BandRow.within`. -/
theorem BandTable.document_ok : BandTable.ok .document := fun b => by
  cases b with
  | m20 | m40 => exact ⟨by decide, by decide, by decide⟩
  | m10 | m15 | m80 | m160 => exact BandRow.within_ok _

/-! ### The parts after reset -/

/-- No step is logged yet, so their sum is the counter's 0, at every width and in every configuration. -/
theorem decoderInv_afterReset (p : Params) (width : Nat) : DecoderInv p (.afterReset width) := by
  have hport : (Qdec.afterReset width).stepOut ≠ 0b10#2 := show 0b00#2 ≠ 0b10#2 by decide
  have hpos : (0 : BitVec width) = BitVec.ofInt width (stepSum []) := by simp [stepSum]
  exact ⟨hport, fun _ => hpos⟩

theorem linesFollowSequencer_afterReset : LinesFollowSequencer .afterReset := fun l => by
  cases l <;> rfl

theorem serializerInv_afterReset : SerializerInv .afterReset :=
  ⟨rfl, linesFollowSequencer_afterReset⟩

/-- The empty trace is that of no command, and no frame is in progress. -/
theorem traceOfCommands_afterReset : TraceOfCommands .afterReset :=
  ⟨⟨[], List.forall_mem_nil _, rfl⟩, fun _ hload => Seq.noConfusion hload⟩

/-- The start is 20 m at the lower edge of its band. -/
theorem tuningInv_start : TuningInv .document .start :=
  ⟨BandTable.document_ok, rfl, rfl, by decide, by decide⟩

/-! ### The whole machine after reset -/

/-- The reset state is the one right after reset has ended. -/
theorem State.reset_restsInReset : State.reset.restsInReset := fun happlied => Bool.noConfusion happlied

theorem State.reset_quiescent : State.reset.quiescent := ⟨rfl, rfl, rfl⟩

/-- Settles O51, part by part. -/
theorem resetMeetsWhatEveryStepKeeps : Obligations.ResetMeetsWhatEveryStepKeeps :=
  ⟨decoderInv_afterReset _ _, serializerInv_afterReset, traceOfCommands_afterReset, tuningInv_start,
    State.reset_restsInReset, State.reset_quiescent⟩

end Sys2Proof.Machine
end

section
/-! What a whole frame's trace is, micro-step by micro-step, and how a micro-step extends the trace (41_ddsser.md R97, R99,
R100). -/

namespace Sys2Proof.Machine

open Sys2Proof

/-! ### The traces as lists of micro-steps -/

/-- The group of bit `k` is the writes of three micro-steps. -/
theorem map_loadWrite_group (F : Frame) {k : Nat} (h : k < 40) :
    [3 * k, 3 * k + 1, 3 * k + 2].map (loadWrite F) =
      [⟨.data, F.getLsbD k⟩, ⟨.clk, true⟩, ⟨.clk, false⟩] := by
  have hlast : 3 * k + 2 < 120 := by omega
  simp [loadWrite, hlast, show 3 * k + 1 < 120 by omega, show 3 * k < 120 by omega]

/-- The first `n` groups of a frame's trace are the writes of its first `3 * n` micro-steps. -/
theorem dataGroups_eq_map_loadWrite (F : Frame) (n : Nat) (h : n ≤ 40) :
    (List.range n).flatMap (fun k => [⟨.data, F.getLsbD k⟩, ⟨.clk, true⟩, ⟨.clk, false⟩]) =
      (List.range (3 * n)).map (loadWrite F) := by
  induction n with
  | zero => rfl
  | succ n ih =>
    have hrange : List.range (3 * (n + 1)) = List.range (3 * n) ++ [3 * n, 3 * n + 1, 3 * n + 2] := by
      simp [Nat.mul_succ, List.range_succ]
    rw [hrange, List.map_append, map_loadWrite_group F h, ← ih (Nat.le_of_succ_le h), List.range_succ,
      List.flatMap_append, List.flatMap_singleton]

/-- A frame's trace is the writes of its 122 micro-steps (41_ddsser.md R97, R100). -/
theorem frameTrace_eq_map_loadWrite (F : Frame) : frameTrace F = (List.range 122).map (loadWrite F) := by
  simp only [frameTrace, dataGroups_eq_map_loadWrite F 40 le_rfl, List.range_succ (n := 121),
    List.range_succ (n := 120), List.map_append, List.append_assoc]
  rfl

/-- INIT's trace is the writes of its four micro-steps (41_ddsser.md R97, R99). -/
theorem initTrace_eq_map_initWrite : initTrace = (List.range 4).map initWrite := rfl

theorem partialTrace_of_idle {d : Ddsser} (h : d.seq = .idle) : partialTrace d = [] := by
  simp [partialTrace, h]

theorem partialTrace_of_init {d : Ddsser} {m : Fin 4} (h : d.seq = .init m) :
    partialTrace d = (List.range m).map initWrite := by
  simp [partialTrace, h, initTrace_eq_map_initWrite, ← List.map_take, List.take_range, m.isLt.le]

theorem partialTrace_of_load {d : Ddsser} {m : Fin 122} (h : d.seq = .load m) :
    partialTrace d = (List.range m).map (loadWrite d.shreg) := by
  simp [partialTrace, h, frameTrace_eq_map_loadWrite, ← List.map_take, List.take_range, m.isLt.le]

/-! ### One micro-step -/

/-- A command is in progress: `seq` is at one of its places, and a LOAD holds the frame of its frequency. -/
inductive InProgress (d : Ddsser) : Sent → Prop
  | init (m : Fin 4) (hseq : d.seq = .init m) : InProgress d .init
  | load (m : Fin 122) (hseq : d.seq = .load m) (f : Nat) (hF : d.shreg = frameOf (tuningWord f)) :
      InProgress d (.load f)

/-- A micro-step continues the command in progress by the write that is due, or makes it whole and leaves DDSSER idle. -/
theorem partialTrace_advance {d d' : Ddsser} {e : PinEntry} {c : Sent} (hc : InProgress d c)
    (due : dueWrite d = some e) (hseq : d'.seq = seqNext d.seq) (hF : d'.shreg = d.shreg) :
    partialTrace d' = partialTrace d ++ [e] ∨
      (d'.seq = .idle ∧ partialTrace d ++ [e] = c.trace) := by
  cases hc with
  | init m h =>
    obtain rfl : initWrite m = e := by simpa [dueWrite, h] using due
    rw [h] at hseq
    by_cases hm : m.val + 1 < 4
    · left
      rw [partialTrace_of_init h, partialTrace_of_init (by simpa [seqNext, hm] using hseq)]
      simp [List.range_succ]
    · right
      have h3 : m.val = 3 := by omega
      refine ⟨by simpa [seqNext, hm] using hseq, ?_⟩
      rw [partialTrace_of_init h, h3]
      rfl
  | load m h f hf =>
    obtain rfl : loadWrite d.shreg m = e := by simpa [dueWrite, h] using due
    rw [h] at hseq
    by_cases hm : m.val + 1 < 122
    · left
      rw [partialTrace_of_load h, partialTrace_of_load (by simpa [seqNext, hm] using hseq), hF]
      simp [List.range_succ]
    · right
      have h121 : m.val = 121 := by omega
      refine ⟨by simpa [seqNext, hm] using hseq, ?_⟩
      rw [partialTrace_of_load h, h121, Sent.trace, ← hf, frameTrace_eq_map_loadWrite,
        List.range_succ (n := 121), List.map_append, List.map_singleton]

/-! ### What every step keeps -/

/-- A DDSSER whose trace is whole has a command in progress, of a legal frequency, when a write is due. -/
theorem TraceOfCommands.inProgress {d : Ddsser} {e : PinEntry} (h : TraceOfCommands d)
    (due : dueWrite d = some e) : ∃ c : Sent, c.legal ∧ InProgress d c := by
  cases hseq : d.seq with
  | idle => simp [dueWrite, hseq] at due
  | init m => exact ⟨.init, trivial, .init m hseq⟩
  | load m =>
    obtain ⟨f, hf, hF⟩ := h.2 m hseq
    exact ⟨.load f, hf, .load m hseq f hF⟩

/-- `seq` moves to a place of a LOAD only from a place of the same LOAD. -/
theorem eq_load_of_seqNext_eq_load {q : Seq} {m : Fin 122} (h : seqNext q = .load m) :
    ∃ m', q = .load m' := by
  cases q with
  | idle => cases h
  | init k => simp only [seqNext] at h; split at h <;> cases h
  | load m' => exact ⟨m', rfl⟩

theorem TraceOfCommands.micro {d : Ddsser} {e : PinEntry} (h : TraceOfCommands d)
    (due : dueWrite d = some e) : TraceOfCommands (advance (driveLine d e)) := by
  obtain ⟨c, hlegal, hc⟩ := h.inProgress due
  obtain ⟨⟨done, hdone, htrace⟩, hframe⟩ := h
  refine ⟨?_, fun m hm => ?_⟩
  · rcases partialTrace_advance hc due (d' := advance (driveLine d e)) (by simp) (by simp) with
      hmore | ⟨hidle, hwhole⟩
    · exact ⟨done, hdone, by simp [htrace, hmore]⟩
    · refine ⟨done ++ [c], ?_, ?_⟩
      · simpa [or_imp, forall_and, hlegal] using hdone
      · simp [htrace, hwhole, partialTrace_of_idle hidle]
  · obtain ⟨m', hm'⟩ := eq_load_of_seqNext_eq_load (by simpa using hm)
    simpa using hframe m' hm'

theorem TraceOfCommands.beginInit {d : Ddsser} (h : TraceOfCommands d) (idle : d.seq = .idle) :
    TraceOfCommands (beginInit d) := by
  obtain ⟨⟨done, hdone, htrace⟩, -⟩ := h
  refine ⟨⟨done, hdone, ?_⟩, nofun⟩
  rw [beginInit_trace, htrace, partialTrace_of_idle idle, partialTrace_of_init (beginInit_seq d)]
  rfl

theorem TraceOfCommands.beginFrame {d : Ddsser} {f : Nat} (h : TraceOfCommands d) (idle : d.seq = .idle)
    (hf : f ≤ Config.freqMaxHz) : TraceOfCommands (beginFrame (tuningWord f) d) := by
  obtain ⟨⟨done, hdone, htrace⟩, -⟩ := h
  refine ⟨⟨done, hdone, ?_⟩, fun _ _ => ⟨f, hf, rfl⟩⟩
  rw [beginFrame_trace, htrace, partialTrace_of_idle idle, partialTrace_of_load (beginFrame_seq _ d)]
  rfl

/-- Settles O35, by what a step can do to DDSSER. -/
theorem everyStepKeepsTheTraceWholeCommands : Obligations.EveryStepKeepsTheTraceWholeCommands := by
  intro s t h hstep
  cases (step_effect hstep).serializer with
  | same hs _ => rwa [hs]
  | micro e due hs _ => rw [hs]; exact h.micro due
  | init _ idle hs _ => rw [hs]; exact h.beginInit idle
  | load f _ idle hf hs _ => rw [hs]; exact h.beginFrame idle hf
  | reset hs _ => rw [hs]; exact traceOfCommands_afterReset

end Sys2Proof.Machine
end

section
/-! The frame of every instruction: edge operations and step codes act on QDEC, commands and the frame on DDSSER's
sequencer, trace codes on one line (20_memory.md R32, R40; 41_ddsser.md R96). -/

namespace Sys2Proof.Machine

open Sys2Proof

/-! ### Pin writes -/

theorem pinWrite_pinWritten (e : PinEntry) (s : State) : PinWritten e s (pinWrite e s) where
  trace := by simp
  level := by simp
  others l hl := by simp [hl]
  shreg := by simp
  env := rfl
  params := rfl
  draws := rfl
  inReset := rfl

/-- Settles O23, each code being the code of its line and level. -/
theorem traceCodesArePinWrites : Obligations.TraceCodesArePinWrites := by
  intro s ie hie
  have hcode : ie.1 = pinCode ie.2.line ie.2.level := by
    revert ie
    decide
  exact ⟨pinWrite ie.2 s, hcode ▸ exec_pinCode _ _ s, pinWrite_pinWritten ie.2 s, by simp, rfl, rfl⟩

/-! ### The pending bits under QDEC's operations -/

theorem edgeBody_pending {h : Bool} {b : EdgeBranch} {e : StepEvent} {arm : Qdec → Qdec} {q : Qdec}
    (hA : (arm q).pendA = q.pendA) (hB : (arm q).pendB = q.pendB) :
    (edgeBody h b e arm q).pendA = q.pendA ∧ (edgeBody h b e arm q).pendB = q.pendB := by
  cases b with
  | emit => exact ⟨rfl, rfl⟩
  | arm => exact ⟨hA, hB⟩
  | none => exact ⟨rfl, rfl⟩

theorem edgeAOf_pending (p : Params) (v : Snapshot) (q : Qdec) :
    (edgeAOf p v q).pendA = q.pendA ∧ (edgeAOf p v q).pendB = q.pendB := edgeBody_pending rfl rfl

theorem edgeBOf_pending (p : Params) (v : Snapshot) (q : Qdec) :
    (edgeBOf p v q).pendA = q.pendA ∧ (edgeBOf p v q).pendB = q.pendB := edgeBody_pending rfl rfl

/-! ### What an instruction can do -/

/-- What an instruction of each format can do when it answers a next state. -/
inductive InstrEffect (i : Instr) (s t : State) : Prop
  /-- an edge operation or a step code changes QDEC, but not its pending bits -/
  | decoder (g : Qdec → Qdec) (hf : i.format = .qe ∨ i.format = .so) (ht : t = updateQdec g s)
      (pending : (g s.qdec).pendA = s.qdec.pendA ∧ (g s.qdec).pendB = s.qdec.pendB)
  /-- a command or a frame changes DDSSER, but neither its trace nor its lines -/
  | command (d : Ddsser) (hf : i.format = .sc ∨ i.format = .f40) (ht : t = { s with ser := d })
      (trace : d.trace = s.ser.trace) (lines : ∀ l, lineLevel d l = lineLevel s.ser l)
  /-- a trace code is a pin write -/
  | pin (e : PinEntry) (hf : i.format = .pw) (ht : t = pinWrite e s)

theorem lineLevel_beginInit (d : Ddsser) (l : OutLine) : lineLevel (beginInit d) l = lineLevel d l := by
  cases l <;> rfl

theorem lineLevel_beginFrame (w : TuningWord) (d : Ddsser) (l : OutLine) :
    lineLevel (beginFrame w d) l = lineLevel d l := by
  cases l <;> rfl

theorem exec_effect {i : Instr} {s t : State} (h : exec i s = .next t) : InstrEffect i s t := by
  cases i with
  | edgeA v => cases h; exact .decoder (edgeAOf s.params v) (.inl rfl) rfl (edgeAOf_pending _ _ _)
  | edgeB v => cases h; exact .decoder (edgeBOf s.params v) (.inl rfl) rfl (edgeBOf_pending _ _ _)
  | stepNone => cases h; exact .decoder noStep (.inr rfl) rfl ⟨rfl, rfl⟩
  | stepInc => cases h; exact .decoder (deliverStep s.params.hasPos .inc) (.inr rfl) rfl ⟨rfl, rfl⟩
  | stepDec => cases h; exact .decoder (deliverStep s.params.hasPos .dec) (.inr rfl) rfl ⟨rfl, rfl⟩
  | nop x => cases h; exact .command s.ser (.inl rfl) rfl rfl fun _ => rfl
  | init x =>
    obtain ⟨-, ht⟩ := accept_eq_next_iff.mp h
    exact .command _ (.inl rfl) ht rfl (lineLevel_beginInit _)
  | load f =>
    obtain ⟨-, -, ht⟩ := acceptLoad_eq_next_iff.mp h
    exact .command _ (.inl rfl) ht rfl (lineLevel_beginFrame _ _)
  | frame w =>
    obtain ⟨-, ht⟩ := accept_eq_next_iff.mp h
    exact .command _ (.inr rfl) ht rfl (lineLevel_beginFrame _ _)
  | d0 | d1 | c0 | c1 | u0 | u1 | x0 | x1 => cases h; exact .pin _ rfl rfl

/-- Settles O38, format by format. -/
theorem theUnitsShareNoState : Obligations.TheUnitsShareNoState := by
  intro i s t h
  cases exec_effect h with
  | decoder g hf ht pending =>
    subst ht
    have hother : ¬ (i.format = .sc ∨ i.format = .f40 ∨ i.format = .pw) := by
      rcases hf with hf | hf <;> simp [hf]
    exact ⟨rfl, rfl, rfl, rfl, rfl, fun _ => ⟨rfl, rfl, pending⟩, fun hn => absurd hn hother,
      fun hn => absurd (hn.imp_right .inl) hother⟩
  | command d hf ht trace lines =>
    subst ht
    have hother : ¬ (i.format = .qe ∨ i.format = .so) := by rcases hf with hf | hf <;> simp [hf]
    exact ⟨rfl, rfl, rfl, rfl, rfl, fun hn => absurd hn hother, fun _ => rfl, fun _ => ⟨rfl, trace, lines⟩⟩
  | pin e hf ht =>
    subst ht
    exact ⟨rfl, rfl, rfl, rfl, rfl, by simp [hf], fun _ => rfl, by simp [hf]⟩

end Sys2Proof.Machine
end

section
/-! Runs of the machine: supplied edge events, line changes, services and micro-steps, in any order (20_memory.md R40,
41_ddsser.md R106). -/

namespace Sys2Proof.Machine

open Sys2Proof

/-! ### Steps and runs -/

theorem run_succ_of_step {s t : State} (h : step s = .next t) (k : Nat) :
    core.run (k + 1) s = core.run k t := by
  have hcore : core.step s = .next t := h
  simp only [Host.Core.run, hcore]

theorem step_of_inputs {s : State} {e : Event} {rest : List Event} (h : s.inputs = e :: rest) :
    step s = eventMove e (quietStep { s with inputs := rest }) := by
  simp only [step, h]

/-! ### The decoder's side -/

/-- The environment after a move that does not concern DDSSER. -/
def environmentAfter (e : Event) (v : Environment) : Environment :=
  match e with
  | .lines a b => { v with encA := a, encB := b }
  | _ => v

/-- QDEC after a move that does not concern DDSSER, from the parts of the state that such a move reads. -/
def decoderAfter (e : Event) (p : Params) (inReset : Bool) (v : Environment) (q : Qdec) : Qdec :=
  match e with
  | .qe w => if inReset then q else edgeOf p w q
  | .lines a b => { q with
      pendA := captureEdge (!inReset) q.pendA v.encA a
      pendB := captureEdge (!inReset) q.pendB v.encB b }
  | .serviceA => if q.pendA then edgeAOf p (snapshotOf v.encA v.encB) { q with pendA := false } else q
  | .serviceB => if q.pendB then edgeBOf p (snapshotOf v.encA v.encB) { q with pendB := false } else q
  | _ => q

/-- A move that does not concern DDSSER goes on, changes QDEC and the encoder lines alone and reads nothing of DDSSER. -/
theorem eventMove_decoderSide {e : Event} (he : e.decoderSide = true) (s : State) :
    eventMove e s = .next { s with
      qdec := decoderAfter e s.params s.inReset s.env s.qdec
      env := environmentAfter e s.env } := by
  cases e with
  | qe w =>
    simp only [eventMove, presentMove_decodeQE, decoderAfter, environmentAfter]
    split <;> rfl
  | lines a b => rfl
  | serviceA => exact serviceMoveA_eq s
  | serviceB => exact serviceMoveB_eq s
  | sc | micro | run | blockReset | press | release | call | loop => cases he

/-- The two states agree on all that a move on the decoder's side reads, the transient `STEP` port left out. -/
structure DecoderSideAgrees (s u : State) : Prop where
  params : s.params = u.params
  inReset : s.inReset = u.inReset
  env : s.env = u.env
  qdec : noStep s.qdec = noStep u.qdec

theorem DecoderSideAgrees.refl (s : State) : DecoderSideAgrees s s := ⟨rfl, rfl, rfl, rfl⟩

theorem DecoderSideAgrees.lasting {s u : State} (h : DecoderSideAgrees s u) :
    s.qdec.lasting = u.qdec.lasting := by
  have hquiet (q : Qdec) : (noStep q).lasting = q.lasting := rfl
  rw [← hquiet, h.qdec, hquiet]

/-- What is supplied next is no part of the agreement. -/
theorem DecoderSideAgrees.with_inputs {s u : State} (h : DecoderSideAgrees s u) (es fs : List Event) :
    DecoderSideAgrees { s with inputs := es } { u with inputs := fs } :=
  ⟨h.params, h.inReset, h.env, h.qdec⟩

/-- The same move on the decoder's side keeps the agreement and leaves both DDSSERs alone. -/
theorem DecoderSideAgrees.step_decoderSide {s u : State} {e : Event} {es fs : List Event}
    (h : DecoderSideAgrees s u) (he : e.decoderSide = true) (hs : s.inputs = e :: es)
    (hu : u.inputs = e :: fs) :
    ∃ t v, step s = .next t ∧ step u = .next v ∧ DecoderSideAgrees t v ∧
      t.inputs = es ∧ v.inputs = fs ∧ t.ser = s.ser ∧ v.ser = u.ser := by
  refine ⟨_, _, (step_of_inputs hs).trans (eventMove_decoderSide he _),
    (step_of_inputs hu).trans (eventMove_decoderSide he _),
    ⟨h.params, h.inReset, ?_, ?_⟩, rfl, rfl, rfl, rfl⟩
  · simp [h.env]
  · simp [h.params, h.inReset, h.env, h.qdec]

/-- A micro-step advances DDSSER and keeps the agreement with a state that makes no move. -/
theorem DecoderSideAgrees.step_micro {s u : State} {es : List Event} (h : DecoderSideAgrees s u)
    (hs : s.inputs = .micro :: es) :
    ∃ t, step s = .next t ∧ DecoderSideAgrees t u ∧ t.inputs = es ∧ t.ser = microStep s.ser :=
  ⟨_, (step_of_inputs hs).trans (microMove_eq _), ⟨h.params, h.inReset, h.env, h.qdec⟩, rfl, rfl⟩

/-- Two machines that agree on the decoder's side, one supplied with micro-steps beside its own events and one without. -/
theorem DecoderSideAgrees.run {s u : State} (h : DecoderSideAgrees s u) {es : List Event}
    (hes : ∀ e ∈ es, e = .micro ∨ e.decoderSide = true) (hs : s.inputs = es)
    (hu : u.inputs = es.filter Event.decoderSide) :
    ∃ t v, core.run es.length s = .next t ∧
      core.run (es.filter Event.decoderSide).length u = .next v ∧ DecoderSideAgrees t v ∧
      t.ser = microSteps (es.count .micro) s.ser ∧ v.ser = u.ser := by
  induction es generalizing s u with
  | nil => exact ⟨s, u, rfl, rfl, h, rfl, rfl⟩
  | cons e es ih =>
    obtain ⟨he, htail⟩ := List.forall_mem_cons.mp hes
    rcases he with rfl | he
    · obtain ⟨t, hstep, hagree, ht, hser⟩ := h.step_micro hs
      obtain ⟨t', v', hrun, hrun', hagree', hser', hv'⟩ := ih hagree htail ht hu
      refine ⟨t', v', (run_succ_of_step hstep _).trans hrun, hrun', hagree', ?_, hv'⟩
      rw [hser', hser, List.count_cons_self]
      rfl
    · have hne : e ≠ .micro := by rintro rfl; cases he
      rw [List.filter_cons_of_pos he] at hu ⊢
      obtain ⟨t, v, hstep, hstep', hagree, ht, hv, hser, hser'⟩ := h.step_decoderSide he hs hu
      obtain ⟨t', v', hrun, hrun', hagree', ht', hv'⟩ := ih hagree htail ht hv
      refine ⟨t', v', (run_succ_of_step hstep _).trans hrun, (run_succ_of_step hstep' _).trans hrun',
        hagree', ?_, hv'.trans hser'⟩
      rw [ht', hser, List.count_cons_of_ne hne]

/-- Settles O39, by induction on the supplied events: the run with micro-steps and the run without agree on the decoder's
side throughout. -/
theorem interleavingChangesNeitherTraceNorStepLog :
    Obligations.InterleavingChangesNeitherTraceNorStepLog := by
  intro s es hes
  obtain ⟨t, u, hrun, hrun', hagree, hser, hser'⟩ :=
    ((DecoderSideAgrees.refl s).with_inputs es (es.filter Event.decoderSide)).run hes rfl rfl
  exact ⟨t, u, hrun, hrun', hser, hser', hagree.lasting, hagree.env⟩

end Sys2Proof.Machine
end

section
/-! What a legal LOAD and RUN send: the 122 micro-steps of the frame of the tuning word (41_ddsser.md R95, R100; 20_memory.md
R34; 30_encoding.md R57). -/

namespace Sys2Proof.Machine

open Sys2Proof

/-! ### RUN -/

/-- RUN's turn makes a micro-step and repeats itself while a command is in progress. -/
theorem step_run_of_busy {s : State} {rest : List Event} (hs : s.inputs = .run :: rest)
    (busy : s.ser.seq ≠ .idle) :
    ∃ t, step s = .next t ∧ t.ser = microStep s.ser ∧
      t.inputs = if (microStep s.ser).seq = .idle then rest else .run :: rest := by
  have hbusy : (quietStep { s with inputs := rest }).busy = true := busy_eq_true_iff.mpr busy
  rw [step_of_inputs hs, eventMove, runMove, if_pos hbusy, microMove_eq, onNext_next]
  by_cases hidle : (microStep s.ser).seq = .idle
  · exact ⟨_, rfl, by simp [State.busy, hidle]⟩
  · exact ⟨_, rfl, by simp [State.busy, hidle]⟩

/-- RUN as far as a command goes: one micro-step of DDSSER in each step of the machine. -/
theorem run_of_busy {s : State} {rest : List Event} (k : Nat) (hs : s.inputs = .run :: rest)
    (busy : ∀ j ≤ k, (microSteps j s.ser).seq ≠ .idle) :
    ∃ t, core.run (k + 1) s = .next t ∧ t.ser = microSteps (k + 1) s.ser := by
  induction k generalizing s with
  | zero =>
    obtain ⟨t, hstep, hser, -⟩ := step_run_of_busy hs (busy 0 le_rfl)
    exact ⟨t, run_succ_of_step hstep 0, hser⟩
  | succ k ih =>
    obtain ⟨t, hstep, hser, hinputs⟩ := step_run_of_busy hs (busy 0 (Nat.zero_le _))
    have hbusy : (microStep s.ser).seq ≠ .idle := busy 1 (Nat.succ_le_succ (Nat.zero_le k))
    rw [if_neg hbusy] at hinputs
    obtain ⟨u, hrun, hu⟩ := ih hinputs fun j hj => hser ▸ busy (j + 1) (Nat.succ_le_succ hj)
    exact ⟨u, (run_succ_of_step hstep _).trans hrun, by rw [hu, hser]; rfl⟩

/-! ### A LOAD's micro-steps -/

theorem microSteps_succ (k : Nat) (d : Ddsser) : microSteps (k + 1) d = microStep (microSteps k d) := by
  induction k generalizing d with
  | zero => rfl
  | succ k ih => exact ih (microStep d)

theorem microStep_of_load {d : Ddsser} {m : Fin 122} (h : d.seq = .load m) :
    microStep d = advance (driveLine d (loadWrite d.shreg m)) := by
  simp [microStep, dueWrite, h]

/-- The first `k` micro-steps of a LOAD send the first `k` writes of its frame. -/
theorem microSteps_load {d : Ddsser} (h : d.seq = .load 0) (k : Nat) (hk : k < 122) :
    (microSteps k d).seq = .load ⟨k, hk⟩ ∧ (microSteps k d).shreg = d.shreg ∧
      (microSteps k d).trace = d.trace ++ (List.range k).map (loadWrite d.shreg) := by
  induction k with
  | zero => exact ⟨h, rfl, by simp [microSteps]⟩
  | succ k ih =>
    obtain ⟨hseq, hshreg, htrace⟩ := ih (Nat.lt_of_succ_lt hk)
    rw [microSteps_succ, microStep_of_load hseq]
    refine ⟨?_, ?_, ?_⟩
    · simp [hseq, seqNext, hk]
    · simp [hshreg]
    · simp [htrace, hshreg, List.range_succ]

/-- A whole LOAD sends the trace of its frame. -/
theorem trace_microSteps_load {d : Ddsser} (h : d.seq = .load 0) :
    (microSteps 122 d).trace = d.trace ++ frameTrace d.shreg := by
  obtain ⟨hseq, hshreg, htrace⟩ := microSteps_load h 121 (by decide)
  rw [microSteps_succ, microStep_of_load hseq, advance_trace, driveLine_trace, htrace, hshreg,
    frameTrace_eq_map_loadWrite, List.range_succ (n := 121), List.map_append, List.map_singleton,
    List.append_assoc]

/-! ### Accepting a LOAD -/

theorem decodeSC_load (f : Hertz) : decodeSC (BitVec.ofNat 34 (2 * 2 ^ 32 + f.toNat)) = .ok (.load f) := by
  have hf := hertz_lt f
  have hw : (BitVec.ofNat 34 (2 * 2 ^ 32 + f.toNat)).toNat = 2 * 2 ^ 32 + f.toNat := by
    rw [BitVec.toNat_ofNat]
    omega
  have hcode : commandCode (BitVec.ofNat 34 (2 * 2 ^ 32 + f.toNat)) = 2 := by
    rw [commandCode, hw]
    omega
  have hoperand : BitVec.ofNat 32 (2 * 2 ^ 32 + f.toNat) = f := by
    apply BitVec.eq_of_toNat_eq
    rw [BitVec.toNat_ofNat]
    omega
  rw [decodeSC_eq, hcode, hw, hoperand]
  rfl

/-- A legal LOAD supplied to an idle DDSSER outside reset begins the frame of its tuning word. -/
theorem step_load {s : State} {f : Hertz} {rest : List Event}
    (hs : s.inputs = .sc (BitVec.ofNat 34 (2 * 2 ^ 32 + f.toNat)) :: rest)
    (hf : f.toNat ≤ Config.freqMaxHz) (idle : s.ser.seq = .idle) (live : s.inReset = false) :
    ∃ t, step s = .next t ∧ t.ser = beginFrame (tuningWord f.toNat) s.ser ∧ t.inputs = rest := by
  rw [step_of_inputs hs, eventMove, commandMove, decodeSC_load]
  have hlive : (quietStep { s with inputs := rest }).inReset = false := live
  exact ⟨_, (presentMove_live hlive).trans (acceptLoad_eq_next_iff.mpr ⟨idle, hf, rfl⟩), rfl, rfl⟩

/-- A legal LOAD and RUN append the trace of its frame. -/
theorem run_load {s : State} {f : Hertz} {rest : List Event}
    (hs : s.inputs = .sc (BitVec.ofNat 34 (2 * 2 ^ 32 + f.toNat)) :: .run :: rest)
    (hf : f.toNat ≤ Config.freqMaxHz) (idle : s.ser.seq = .idle) (live : s.inReset = false) :
    ∃ t, core.run 123 s = .next t ∧
      t.ser.trace = s.ser.trace ++ frameTrace (frameOf (tuningWord f.toNat)) := by
  obtain ⟨u, hstep, hser, hinputs⟩ := step_load hs hf idle live
  have hload : u.ser.seq = .load 0 := by rw [hser, beginFrame_seq]
  have hbusy : ∀ j ≤ 121, (microSteps j u.ser).seq ≠ .idle := by
    intro j hj
    rw [(microSteps_load hload j (Nat.lt_succ_of_le hj)).1]
    exact Seq.noConfusion
  obtain ⟨t, hrun, ht⟩ := run_of_busy 121 hinputs hbusy
  refine ⟨t, (run_succ_of_step hstep 122).trans hrun, ?_⟩
  rw [ht, trace_microSteps_load hload, hser, beginFrame_trace, beginFrame_shreg]

/-! ### The lines of a frame's trace -/

/-- The writes to `DATA` of a frame's trace are its bits, from bit 0 on. -/
theorem frameTrace_dataLevels (F : Frame) :
    ((frameTrace F).filter (fun e => e.line = .data)).map PinEntry.level =
      (List.range 40).map F.getLsbD := by
  simp [frameTrace, List.filter_flatMap, ← List.map_eq_flatMap]

/-- A frame's trace writes `DATA` once and `CLK` twice for each of the 40 bits, and then pulses `FQ_UD`. -/
theorem frameTrace_countP_line (F : Frame) (l : OutLine) :
    (frameTrace F).countP (fun e => e.line = l) =
      match l with
      | .data => 40
      | .clk => 80
      | .fqUd => 2
      | .reset => 0 := by
  cases l <;> simp [frameTrace, List.countP_flatMap, Function.comp_def]

theorem frameOf_getLsbD (w : TuningWord) (k : Nat) :
    (frameOf w).getLsbD k = if k < 32 then w.getLsbD k else false := by
  have happend : (frameOf w).getLsbD k = if k < 32 then w.getLsbD k else (0x00#8).getLsbD (k - 32) :=
    BitVec.getLsbD_append
  rw [happend, BitVec.getLsbD_zero]

/-- The bits of a frame are those of its tuning number, then the eight zeros of the control byte. -/
theorem frameOf_tuningWord_bits (f : Nat) :
    (List.range 40).map (frameOf (tuningWord f)).getLsbD =
      (List.range 32).map (fun k => (tuningNumber f).testBit k) ++ List.replicate 8 false := by
  rw [show 40 = 32 + 8 from rfl, List.range_add, List.map_append, List.map_map]
  congr 1
  · apply List.map_congr_left
    intro k hk
    replace hk : k < 32 := List.mem_range.mp hk
    rw [frameOf_getLsbD, if_pos hk, tuningWord, BitVec.getLsbD_ofNat, decide_eq_true hk, Bool.true_and]
  · simp [frameOf_getLsbD, Function.comp_def]

/-- Settles O29: the trace that LOAD and RUN append is the frame's, whose bits are the tuning number's. -/
theorem theWordIsSentLeastSignificantBitFirst : Obligations.TheWordIsSentLeastSignificantBitFirst := by
  intro s f rest hs hf idle live
  obtain ⟨t, hrun, htrace⟩ := run_load hs hf idle live
  exact ⟨t, _, hrun, htrace, (frameTrace_dataLevels _).trans (frameOf_tuningWord_bits f.toNat),
    frameTrace_countP_line _ .clk, frameTrace_countP_line _ .fqUd, frameTrace_countP_line _ .reset⟩

end Sys2Proof.Machine
end

section
/-! Words as fields: each format's decoder on the fields of a word, and the encoder's number as the same fields
(30_encoding.md R51 to R60). -/

namespace Sys2Proof

/-! ### Two fields side by side -/

/-- The number of two fields side by side is the upper one's, shifted by the width of the lower one, and the lower one's. -/
theorem toNat_append_eq_mul_add {n m : Nat} (hi : BitVec n) (lo : BitVec m) :
    (hi ++ lo).toNat = hi.toNat * 2 ^ m + lo.toNat := by
  rw [BitVec.toNat_append, ← Nat.shiftLeft_add_eq_or_of_lt lo.isLt, Nat.shiftLeft_eq]

/-- Every word is its two fields side by side, wherever it is cut. -/
theorem exists_append_eq {n m : Nat} (w : BitVec (n + m)) :
    ∃ (hi : BitVec n) (lo : BitVec m), hi ++ lo = w :=
  ⟨w.extractLsb' m n, w.extractLsb' 0 m, BitVec.extractLsb'_append_extractLsb'⟩

/-! ### The decoder on a word of its format's width -/

theorem decode_qe (e : BitVec 3) : decode .qe e.toNat = .ok (decodeQE e) := by
  simp [decode, Format.width, e.isLt]

theorem decode_sc (c : BitVec 34) : decode .sc c.toNat = decodeSC c := by
  simp [decode, Format.width, c.isLt]

theorem decode_so (v : BitVec 2) : decode .so v.toNat = decodeSO v := by
  simp [decode, Format.width, v.isLt]

theorem decode_f40 (v : Frame) : decode .f40 v.toNat = decodeF40 v := by
  simp [decode, Format.width, Machine.frame_lt]

theorem decode_pw (p : BitVec 3) : decode .pw p.toNat = .ok (decodePW p) := by
  simp [decode, Format.width, p.isLt]

theorem decode_tooWide {fmt : Format} {w : Nat} (h : 2 ^ fmt.width ≤ w) : decode fmt w = .error .tooWide :=
  if_neg h.not_gt

/-- A number that decodes is a word of its format's width. -/
theorem exists_toNat_eq_of_decode {fmt : Format} {w : Nat} {i : Instr} (h : decode fmt w = .ok i) :
    ∃ v : BitVec fmt.width, v.toNat = w := by
  by_cases hw : w < 2 ^ fmt.width
  · exact ⟨.ofNatLT w hw, BitVec.toNat_ofNatLT w hw⟩
  · rw [decode_tooWide (not_lt.mp hw)] at h
    cases h

/-! ### The decoders on a word's fields -/

theorem decodeQE_append (line : BitVec 1) (v : Snapshot) :
    decodeQE (line ++ v) = if line = 1#1 then .edgeB v else .edgeA v := by
  revert line v
  decide

theorem decodeSC_append (cmd : BitVec 2) (f : BitVec 32) :
    decodeSC (cmd ++ f) =
      if cmd = 0b00#2 then .ok (.nop f)
      else if cmd = 0b01#2 then .ok (.init f)
      else if cmd = 0b10#2 then .ok (.load f)
      else .error .reservedCommand := by
  rw [decodeSC, BitVec.extractLsb'_append_eq_left, BitVec.extractLsb'_append_eq_right]

theorem decodeF40_append (ctrl : BitVec 8) (w : TuningWord) :
    decodeF40 (ctrl ++ w) = if ctrl = Config.ctrlByte then .ok (.frame w) else .error .controlByteNotZero := by
  rw [decodeF40, BitVec.extractLsb'_append_eq_left, BitVec.extractLsb'_append_eq_right]

/-! ### The encoder's number as fields -/

theorem encode_edgeA (v : Snapshot) : encode (.edgeA v) = (0#1 ++ v).toNat :=
  ((toNat_append_eq_mul_add 0#1 v).trans (by simp [encode])).symm

theorem encode_edgeB (v : Snapshot) : encode (.edgeB v) = (1#1 ++ v).toNat :=
  (toNat_append_eq_mul_add 1#1 v).symm

theorem encode_nop (f : BitVec 32) : encode (.nop f) = (0b00#2 ++ f).toNat :=
  ((toNat_append_eq_mul_add 0b00#2 f).trans (by simp [encode])).symm

theorem encode_init (f : BitVec 32) : encode (.init f) = (0b01#2 ++ f).toNat :=
  (toNat_append_eq_mul_add 0b01#2 f).symm

theorem encode_load (f : Hertz) : encode (.load f) = (0b10#2 ++ f).toNat :=
  (toNat_append_eq_mul_add 0b10#2 f).symm

theorem encode_frame (w : TuningWord) : encode (.frame w) = (Config.ctrlByte ++ w).toNat :=
  (toNat_append_eq_mul_add _ w).symm

/-! ### What decodes is what is encoded -/

/-- Settles O1: the encoder's number is the fields that the decoder of the instruction's format reads. -/
theorem decodingAnEncodedInstructionGivesItBack : Obligations.DecodingAnEncodedInstructionGivesItBack := by
  intro i
  cases i with
  | edgeA v => rw [encode_edgeA, Instr.format, decode_qe, decodeQE_append]; rfl
  | edgeB v => rw [encode_edgeB, Instr.format, decode_qe, decodeQE_append]; rfl
  | nop f => rw [encode_nop, Instr.format, decode_sc, decodeSC_append]; rfl
  | init f => rw [encode_init, Instr.format, decode_sc, decodeSC_append]; rfl
  | load f => rw [encode_load, Instr.format, decode_sc, decodeSC_append]; rfl
  | frame w => rw [encode_frame, Instr.format, decode_f40, decodeF40_append, if_pos rfl]
  | stepNone | stepInc | stepDec => decide
  | d0 | d1 | c0 | c1 | u0 | u1 | x0 | x1 => decide

/-- The instruction belongs to the format and its encoding is the number of the word: the conclusion of O2, for a word of
the format's width. -/
def EncodesTo (fmt : Format) (i : Instr) (v : BitVec fmt.width) : Prop := i.format = fmt ∧ encode i = v.toNat

theorem decodeQE_encodesTo (e : BitVec 3) : EncodesTo .qe (decodeQE e) e := by
  obtain ⟨line, v, rfl⟩ := exists_append_eq (n := 1) (m := 2) e
  rw [decodeQE_append]
  split_ifs with h
  · subst h
    exact ⟨rfl, encode_edgeB v⟩
  · obtain rfl : line = 0#1 := by revert line; decide
    exact ⟨rfl, encode_edgeA v⟩

theorem decodeSC_encodesTo {c : BitVec 34} {i : Instr} (h : decodeSC c = .ok i) : EncodesTo .sc i c := by
  obtain ⟨cmd, f, rfl⟩ := exists_append_eq (n := 2) (m := 32) c
  rw [decodeSC_append] at h
  split_ifs at h with h0 h1 h2
  · cases h0; cases h; exact ⟨rfl, encode_nop f⟩
  · cases h1; cases h; exact ⟨rfl, encode_init f⟩
  · cases h2; cases h; exact ⟨rfl, encode_load f⟩

theorem decodeSO_encodesTo {v : BitVec 2} {i : Instr} (h : decodeSO v = .ok i) : EncodesTo .so i v := by
  unfold decodeSO at h
  split_ifs at h with h0 h1 h2
  · cases h0; cases h; exact ⟨rfl, rfl⟩
  · cases h1; cases h; exact ⟨rfl, rfl⟩
  · cases h2; cases h; exact ⟨rfl, rfl⟩

theorem decodeF40_encodesTo {v : Frame} {i : Instr} (h : decodeF40 v = .ok i) : EncodesTo .f40 i v := by
  obtain ⟨ctrl, w, rfl⟩ := exists_append_eq (n := 8) (m := 32) v
  rw [decodeF40_append] at h
  split_ifs at h with h0
  cases h0; cases h; exact ⟨rfl, encode_frame w⟩

theorem decodePW_encodesTo (p : BitVec 3) : EncodesTo .pw (decodePW p) p := by
  revert p
  change ∀ p : BitVec 3, (decodePW p).format = .pw ∧ encode (decodePW p) = p.toNat
  decide

/-- Settles O2, format by format. -/
theorem aDecodedWordIsItsInstructionsEncoding : Obligations.ADecodedWordIsItsInstructionsEncoding := by
  intro fmt w i h
  obtain ⟨v, rfl⟩ := exists_toNat_eq_of_decode h
  cases fmt with
  | qe => cases (decode_qe v).symm.trans h; exact decodeQE_encodesTo v
  | sc => exact decodeSC_encodesTo ((decode_sc v).symm.trans h)
  | so => exact decodeSO_encodesTo ((decode_so v).symm.trans h)
  | f40 => exact decodeF40_encodesTo ((decode_f40 v).symm.trans h)
  | pw => cases (decode_pw v).symm.trans h; exact decodePW_encodesTo v

/-! ### Reserved words -/

theorem decode_reservedCommand {f : Nat} (hf : f < 2 ^ 32) :
    decode .sc (3 * 2 ^ 32 + f) = .error .reservedCommand := by
  have hword : 3 * 2 ^ 32 + f = (0b11#2 ++ BitVec.ofNatLT f hf).toNat :=
    (toNat_append_eq_mul_add 0b11#2 (BitVec.ofNatLT f hf)).symm
  rw [hword, decode_sc, decodeSC_append]
  rfl

theorem decode_controlByteNotZero {w : Nat} (hlow : 2 ^ 32 ≤ w) (hhigh : w < 2 ^ 40) :
    decode .f40 w = .error .controlByteNotZero := by
  obtain ⟨ctrl, lo, hword⟩ := exists_append_eq (n := 8) (m := 32) (.ofNatLT w hhigh)
  have hw : w = (ctrl ++ lo).toNat := by rw [hword, BitVec.toNat_ofNatLT]
  have hctrl : ctrl ≠ Config.ctrlByte := by
    rintro rfl
    rw [toNat_append_eq_mul_add, show Config.ctrlByte.toNat = 0 from rfl, Nat.zero_mul, Nat.zero_add] at hw
    exact absurd (hw ▸ lo.isLt) hlow.not_gt
  rw [hw]
  exact (decode_f40 _).trans ((decodeF40_append ctrl lo).trans (if_neg hctrl))

/-- Settles O4, error by error. -/
theorem reservedWordsAreRejectedByName : Obligations.ReservedWordsAreRejectedByName :=
  ⟨fun _ => decode_reservedCommand, rfl, fun _ => decode_controlByteNotZero, fun _ _ => decode_tooWide⟩

/-- Settles O3: eight closed words. -/
theorem specWordsDecodeToTheirInstructions : Obligations.SpecWordsDecodeToTheirInstructions := by
  unfold Obligations.SpecWordsDecodeToTheirInstructions
  decide

end Sys2Proof
end

section
/-! What a step does with the word it takes, and what the commands and step codes answer (30_encoding.md R54 to R59,
41_ddsser.md R92 to R98). -/

namespace Sys2Proof.Machine

open Sys2Proof

/-! ### Commands refused -/

theorem acceptLoad_of_busy {s : State} (h : s.ser.seq ≠ .idle) (f : Nat) :
    acceptLoad f s = .refused .commandWhileBusy :=
  if_pos (busy_eq_true_iff.mpr h)

theorem acceptLoad_of_outOfRange {s : State} {f : Nat} (idle : s.ser.seq = .idle) (hf : Config.freqMaxHz < f) :
    acceptLoad f s = .refused .frequencyOutOfRange := by
  rw [acceptLoad, busy_eq_false_iff.mpr idle, if_neg Bool.false_ne_true, if_neg hf.not_ge]

/-- Settles O22, by what accepting a command answers. -/
theorem commandsAreRefusedWhenBusyOrOutOfRange : Obligations.CommandsAreRefusedWhenBusyOrOutOfRange := fun _ =>
  ⟨fun busy => ⟨fun _ => accept_of_busy busy, fun _ => acceptLoad_of_busy busy _, fun _ => accept_of_busy busy⟩,
    fun idle _ hf => acceptLoad_of_outOfRange idle hf⟩

/-! ### A frame begins -/

/-- The zero control byte above a tuning word is the word at the frame's width. -/
theorem frameOf_eq_setWidth (w : TuningWord) : frameOf w = w.setWidth 40 :=
  (BitVec.setWidth_eq_append (w := 40) (x := w) (by decide)).symm

/-- Settles O21, by what an idle DDSSER accepts. -/
theorem aFrameBeginsWhenIdle : Obligations.AFrameBeginsWhenIdle := by
  intro s w idle
  rw [← frameOf_eq_setWidth]
  exact accept_of_idle idle

/-! ### Step codes -/

/-- Settles O8: each code is its delivery, `pos` moving by the step's value. -/
theorem stepCodesDeliverTheirStep : Obligations.StepCodesDeliverTheirStep := by
  intro s
  refine ⟨rfl, ?_, ?_⟩
  · rw [← posAdd_inc]
    rfl
  · rw [← posAdd_dec]
    rfl

/-! ### The word a step takes -/

theorem commandMove_of_ok {w : BitVec 34} {i : Instr} (h : decodeSC w = .ok i) (s : State) :
    commandMove w s = presentMove i s := by
  rw [commandMove, h]

theorem commandMove_of_error {w : BitVec 34} {r : DecodeError} (h : decodeSC w = .error r) (s : State) :
    commandMove w s = .refused .reservedCommand := by
  rw [commandMove, h]

theorem decodeQE_wellFormed (w : BitVec 3) : (decodeQE w).wellFormed = true := by
  unfold decodeQE
  split <;> rfl

/-- Settles O5: the state with the word taken and the port quiet is the one on which the word is presented. -/
theorem aStepRunsTheDecodedInstruction : Obligations.AStepRunsTheDecodedInstruction := by
  intro s rest taken
  refine ⟨fun w i hs hdecode => ?_, fun w i hs hdecode => ?_, fun w r hs hdecode => ?_⟩
  · have hstep : step s = presentMove (decodeQE w) taken := step_of_inputs hs
    cases (decode_qe w).symm.trans hdecode
    exact ⟨fun live => hstep.trans (presentMove_live live),
      fun hreset => hstep.trans (presentMove_in_reset hreset (decodeQE_wellFormed w))⟩
  · have hstep : step s = presentMove i taken :=
      (step_of_inputs hs).trans (commandMove_of_ok ((decode_sc w).symm.trans hdecode) taken)
    refine ⟨?_, fun hreset legal => hstep.trans (presentMove_in_reset hreset legal)⟩
    rintro (live | illegal)
    · exact hstep.trans (presentMove_live live)
    · exact hstep.trans (presentMove_illFormed illegal)
  · exact (step_of_inputs hs).trans (commandMove_of_error ((decode_sc w).symm.trans hdecode) taken)

end Sys2Proof.Machine
end

section
/-! The two EDGE operations as one, named by the step each can emit: what its three branches do and what it reads (40_qdec.md
R71 to R75). -/

namespace Sys2Proof.Machine

open Sys2Proof

/-! ### An EDGE operation by its step -/

/-- The flag that the operation emitting `e` tests: `expectA` for EDGE_A, which decrements, `expectB` for EDGE_B. -/
def expects : StepEvent → Qdec → Bool
  | .dec => Qdec.expectA
  | .inc => Qdec.expectB

/-- What the operation emitting `e` arms: the flag of the opposite step. -/
def armOpposite : StepEvent → Qdec → Qdec
  | .dec => armExpectB
  | .inc => armExpectA

/-- The literal at which the operation emitting `e` arms. -/
def armLiteral (p : Params) : StepEvent → Snapshot
  | .dec => p.armA
  | .inc => p.armB

/-- QDEC after the operation that can emit `e`: EDGE_A for a decrement, EDGE_B for an increment. -/
def edgeFor (p : Params) : StepEvent → Snapshot → Qdec → Qdec
  | .dec => edgeAOf p
  | .inc => edgeBOf p

/-- The instruction of that operation. -/
def edgeInstr : StepEvent → Snapshot → Instr
  | .dec => .edgeA
  | .inc => .edgeB

theorem exec_edgeInstr (e : StepEvent) (v : Snapshot) (s : State) :
    exec (edgeInstr e v) s = .next (updateQdec (edgeFor s.params e v) s) := by
  cases e <;> rfl

/-- The step that the operation of a QE word can emit: bit 2 is the line (30_encoding.md R51). -/
def wordStep (w : BitVec 3) : StepEvent := if w.getLsbD 2 then .inc else .dec

/-- The snapshot in a QE word (30_encoding.md R51). -/
def wordSnapshot (w : BitVec 3) : Snapshot := w.extractLsb' 0 2

theorem edgeOf_eq_edgeFor (p : Params) (w : BitVec 3) : edgeOf p w = edgeFor p (wordStep w) (wordSnapshot w) := by
  funext q
  unfold edgeOf wordStep
  split <;> rfl

theorem edgeFor_eq (p : Params) (e : StepEvent) (v : Snapshot) (q : Qdec) :
    edgeFor p e v q =
      if v = 0b11#2 ∧ expects e q = true then deliverStep p.hasPos e { q with snap := v }
      else if v = armLiteral p e then noStep (armOpposite e { q with snap := v })
      else noStep { q with snap := v } := by
  cases e <;> exact edgeBody_edgeBranch ..

/-- Settles O6: the encoding is O1's round trip, and `pos` falls by the value of a decrement. -/
theorem edgeADoesWhatItsRuleSays : Obligations.EdgeADoesWhatItsRuleSays := by
  refine ⟨fun v => decodingAnEncodedInstructionGivesItBack (.edgeA v), rfl, rfl, fun s v => ?_⟩
  refine (exec_edgeInstr .dec v s).trans ?_
  rw [updateQdec, edgeFor_eq, ← posAdd_dec]
  rfl

/-- Settles O7: the encoding is O1's round trip, and `pos` rises by the value of an increment. -/
theorem edgeBDoesWhatItsRuleSays : Obligations.EdgeBDoesWhatItsRuleSays := by
  refine ⟨fun v => decodingAnEncodedInstructionGivesItBack (.edgeB v), rfl, rfl, fun s v => ?_⟩
  refine (exec_edgeInstr .inc v s).trans ?_
  rw [updateQdec, edgeFor_eq, ← posAdd_inc]
  rfl

/-! ### What each change of QDEC does to the flags -/

section
variable (d e : StepEvent) (v : Snapshot) (a b h : Bool) (q : Qdec)

@[simp] theorem expects_snap : expects d { q with snap := v } = expects d q := by cases d <;> rfl
@[simp] theorem expects_pending : expects d { q with pendA := a, pendB := b } = expects d q := by cases d <;> rfl
@[simp] theorem expects_noStep : expects d (noStep q) = expects d q := by cases d <;> rfl
@[simp] theorem expects_deliverStep : expects d (deliverStep h e q) = false := by cases d <;> rfl

@[simp] theorem expects_armOpposite : expects d (armOpposite e q) = (expects d q || decide (d ≠ e)) := by
  cases d <;> cases e <;> simp [expects, armOpposite]

@[simp] theorem armOpposite_stepLog : (armOpposite e q).stepLog = q.stepLog := by cases e <;> rfl
@[simp] theorem armOpposite_pos : (armOpposite e q).pos = q.pos := by cases e <;> rfl

end

/-! ### Branch by branch -/

/-- The operation's tests both fail: it neither emits nor arms (40_qdec.md R73). -/
def Rests (p : Params) (e : StepEvent) (v : Snapshot) (q : Qdec) : Prop :=
  ¬(v = 0b11#2 ∧ expects e q = true) ∧ v ≠ armLiteral p e

theorem edgeFor_of_armed {p : Params} {e : StepEvent} {v : Snapshot} {q : Qdec} (hv : v = 0b11#2)
    (armed : expects e q = true) : edgeFor p e v q = deliverStep p.hasPos e { q with snap := v } := by
  rw [edgeFor_eq, if_pos ⟨hv, armed⟩]

theorem edgeFor_of_literal {p : Params} {e : StepEvent} {v : Snapshot} {q : Qdec}
    (idle : ¬(v = 0b11#2 ∧ expects e q = true)) (hv : v = armLiteral p e) :
    edgeFor p e v q = noStep (armOpposite e { q with snap := v }) := by
  rw [edgeFor_eq, if_neg idle, if_pos hv]

theorem edgeFor_of_rests {p : Params} {e : StepEvent} {v : Snapshot} {q : Qdec} (h : Rests p e v q) :
    edgeFor p e v q = noStep { q with snap := v } := by
  rw [edgeFor_eq, if_neg h.1, if_neg h.2]

/-- All that an EDGE operation can do to QDEC (40_qdec.md R75). -/
inductive EdgeEffect (p : Params) (e : StepEvent) (v : Snapshot) (q q' : Qdec) : Prop
  | emits (hv : v = 0b11#2) (armed : expects e q = true)
      (hq : q' = deliverStep p.hasPos e { q with snap := v })
  | arms (idle : ¬(v = 0b11#2 ∧ expects e q = true)) (hv : v = armLiteral p e)
      (hq : q' = noStep (armOpposite e { q with snap := v }))
  | rests (h : Rests p e v q) (hq : q' = noStep { q with snap := v })

theorem edgeFor_effect (p : Params) (e : StepEvent) (v : Snapshot) (q : Qdec) :
    EdgeEffect p e v q (edgeFor p e v q) := by
  by_cases hemit : v = 0b11#2 ∧ expects e q = true
  · exact .emits hemit.1 hemit.2 (edgeFor_of_armed hemit.1 hemit.2)
  · by_cases harm : v = armLiteral p e
    · exact .arms hemit harm (edgeFor_of_literal hemit harm)
    · exact .rests ⟨hemit, harm⟩ (edgeFor_of_rests ⟨hemit, harm⟩)

/-- An operation that logs the step `d` is `d`'s own, at the detent and armed (40_qdec.md R80 (c)). -/
theorem EdgeEffect.of_logged {p : Params} {d e : StepEvent} {v : Snapshot} {q q' : Qdec}
    (h : EdgeEffect p e v q q') (hlog : q'.stepLog = q.stepLog ++ [d]) :
    e = d ∧ v = 0b11#2 ∧ expects d q = true ∧ q' = deliverStep p.hasPos d { q with snap := 0b11#2 } := by
  cases h with
  | emits hv armed hq =>
    subst hv hq
    obtain rfl : e = d := by simpa using hlog
    exact ⟨rfl, rfl, armed, rfl⟩
  | arms idle hv hq => subst hq; simp at hlog
  | rests h hq => subst hq; simp at hlog

/-- Where a flag is set after an operation no step went out, and the flag was set before or the operation is the opposite
step's at its literal (40_qdec.md R80 (b)). -/
theorem EdgeEffect.of_expects {p : Params} {d e : StepEvent} {v : Snapshot} {q q' : Qdec}
    (h : EdgeEffect p e v q q') (hflag : expects d q' = true) :
    q'.stepLog = q.stepLog ∧ (expects d q = true ∨ (d ≠ e ∧ v = armLiteral p e)) := by
  cases h with
  | emits hv armed hq => subst hq; simp at hflag
  | arms idle hv hq =>
    subst hq
    exact ⟨by simp, (by simpa using hflag : expects d q = true ∨ d ≠ e).imp_right (⟨·, hv⟩)⟩
  | rests h hq => subst hq; exact ⟨rfl, by simpa using Or.inl hflag⟩

end Sys2Proof.Machine
end

section
/-! What an instruction and a step of the machine can do to QDEC: when a step goes out, when a flag changes, and the sum of the
emitted steps (40_qdec.md R74, R80). -/

namespace Sys2Proof.Machine

open Sys2Proof

/-! ### Emission -/

/-- An operation emits a step, or it leaves `pos` and the step log as they are and clears no flag (40_qdec.md R74, R80 (a)). -/
inductive Emission (p : Params) (q q' : Qdec) : Prop
  | emits (e : StepEvent) (v : Snapshot) (hq : q' = deliverStep p.hasPos e { q with snap := v })
  | silent (log : q'.stepLog = q.stepLog) (pos : q'.pos = q.pos)
      (port : q'.stepOut = q.stepOut ∨ q'.stepOut = 0b00#2)
      (flags : ∀ d, expects d q = true → expects d q' = true)

theorem EdgeEffect.emission {p : Params} {e : StepEvent} {v : Snapshot} {q q' : Qdec}
    (h : EdgeEffect p e v q q') : Emission p q q' := by
  cases h with
  | emits hv armed hq => exact .emits e v hq
  | arms idle hv hq =>
    subst hq
    exact .silent (by simp) (by simp) (.inr rfl) fun d hd => by simp [hd]
  | rests h hq =>
    subst hq
    exact .silent rfl rfl (.inr rfl) fun d hd => by simp [hd]

/-! ### `pos` is the sum of the steps -/

theorem stepCode_ne_neverProduced (e : StepEvent) : stepCode e ≠ 0b10#2 := by
  cases e <;> decide

theorem stepSum_append_singleton (log : List StepEvent) (e : StepEvent) :
    stepSum (log ++ [e]) = stepSum log + stepValue e := by
  simp [stepSum]

/-- The delivery of a step moves `pos` and the sum of the log by the step's value. -/
theorem DecoderInv.deliverStep {p : Params} {q : Qdec} (h : DecoderInv p q) (e : StepEvent) (v : Snapshot) :
    DecoderInv p (deliverStep p.hasPos e { q with snap := v }) := by
  obtain ⟨-, hpos⟩ := h
  refine ⟨stepCode_ne_neverProduced e, fun has => ?_⟩
  have hmove : (Machine.deliverStep p.hasPos e { q with snap := v }).pos = posAdd q.pos (stepValue e) := if_pos has
  rw [hmove, deliverStep_stepLog, stepSum_append_singleton, posAdd, hpos has, BitVec.ofInt_add]

theorem DecoderInv.emission {p : Params} {q q' : Qdec} (h : DecoderInv p q) (he : Emission p q q') :
    DecoderInv p q' := by
  cases he with
  | emits e v hq => subst hq; exact h.deliverStep e v
  | silent log pos port =>
    obtain ⟨hport, hpos⟩ := h
    refine ⟨?_, by rw [log, pos]; exact hpos⟩
    rcases port with port | port <;> rw [port]
    · exact hport
    · decide

/-! ### What a step can do -/

/-- What a step can do to QDEC, the pending bits left open: the block's reset, nothing but those bits and the quiet port,
or one EDGE operation. -/
inductive DecoderStep (s t : State) : Prop
  | reset (hq : t.qdec = .afterReset s.qdec.pos.width)
  | pending (a b : Bool) (hq : t.qdec = noStep { s.qdec with pendA := a, pendB := b })
  | edge (e : StepEvent) (v : Snapshot) (a b : Bool)
      (he : EdgeEffect s.params e v (noStep { s.qdec with pendA := a, pendB := b }) t.qdec)

theorem DecoderMove.decoderStep {s t : State} (h : DecoderMove s t) : DecoderStep s t := by
  cases h with
  | same hq => exact .pending _ _ hq
  | edge w live hq =>
    rw [edgeOf_eq_edgeFor] at hq
    exact .edge _ _ _ _ (hq ▸ edgeFor_effect s.params _ _ (noStep s.qdec))
  | serviceA hp hq => exact .edge .dec s.snapshot false s.qdec.pendB (hq ▸ edgeFor_effect s.params .dec _ _)
  | serviceB hp hq => exact .edge .inc s.snapshot s.qdec.pendA false (hq ▸ edgeFor_effect s.params .inc _ _)
  | lines a b hq => exact .pending _ _ hq
  | reset hq => exact .reset hq

/-- Settles O16: an emission moves `pos` and the sum together, and the block's reset makes both zero. -/
theorem everyStepKeepsPosTheSumOfSteps : Obligations.EveryStepKeepsPosTheSumOfSteps := by
  intro s t h hstep
  have effect := step_effect hstep
  have quiet (a b : Bool) : DecoderInv s.params (noStep { s.qdec with pendA := a, pendB := b }) :=
    h.emission (.silent rfl rfl (.inr rfl) fun d hd => by simpa using hd)
  rw [effect.params]
  cases effect.decoder.decoderStep with
  | reset hq => exact hq ▸ decoderInv_afterReset ..
  | pending a b hq => exact hq ▸ quiet a b
  | edge e v a b he => exact (quiet a b).emission he.emission

/-- A step that logs `d` is `d`'s own operation, armed, and delivers it; the block's reset and a quiet step log nothing. -/
theorem DecoderStep.of_logged {s t : State} {d : StepEvent} (h : DecoderStep s t)
    (hlog : t.qdec.stepLog = s.qdec.stepLog ++ [d]) :
    expects d s.qdec = true ∧ t.qdec.snap = 0b11#2 ∧ t.qdec.expectA = false ∧ t.qdec.expectB = false ∧
      t.qdec.stepOut = stepCode d := by
  cases h with
  | reset hq => rw [hq] at hlog; exact absurd hlog.symm (by simp [Qdec.afterReset])
  | pending a b hq => simp [hq] at hlog
  | edge e v a b he =>
    obtain ⟨-, -, armed, hq⟩ := he.of_logged hlog
    rw [hq]
    exact ⟨by simpa using armed, rfl, rfl, rfl, rfl⟩

/-- Settles O15, for either step. -/
theorem aStepEmitsOnlyAtAnArmedDetent : Obligations.AStepEmitsOnlyAtAnArmedDetent := fun _ _ hstep =>
  have hmove := (step_effect hstep).decoder.decoderStep
  ⟨hmove.of_logged, hmove.of_logged⟩

/-! ### What an instruction can do -/

/-- What an instruction can do to QDEC: one of the two EDGE operations, the delivery of a step by its code, the quiet port, or
nothing. -/
inductive InstrOnDecoder (p : Params) (i : Instr) (q q' : Qdec) : Prop
  | edge (e : StepEvent) (v : Snapshot) (hi : i = edgeInstr e v) (he : EdgeEffect p e v q q')
  | delivery (e : StepEvent) (hq : q' = deliverStep p.hasPos e q)
  | quiet (hq : q' = noStep q)
  | same (hq : q' = q)

theorem exec_onDecoder {i : Instr} {s t : State} (h : exec i s = .next t) :
    InstrOnDecoder s.params i s.qdec t.qdec := by
  cases i with
  | edgeA v => cases h; exact .edge .dec v rfl (edgeFor_effect ..)
  | edgeB v => cases h; exact .edge .inc v rfl (edgeFor_effect ..)
  | stepNone => cases h; exact .quiet rfl
  | stepInc => cases h; exact .delivery .inc rfl
  | stepDec => cases h; exact .delivery .dec rfl
  | nop x => cases h; exact .same rfl
  | init x => obtain ⟨-, rfl⟩ := accept_eq_next_iff.mp h; exact .same rfl
  | load f => obtain ⟨-, -, rfl⟩ := acceptLoad_eq_next_iff.mp h; exact .same rfl
  | frame w => obtain ⟨-, rfl⟩ := accept_eq_next_iff.mp h; exact .same rfl
  | d0 | d1 | c0 | c1 | u0 | u1 | x0 | x1 => cases h; exact .same rfl

theorem InstrOnDecoder.emission {p : Params} {i : Instr} {q q' : Qdec} (h : InstrOnDecoder p i q q') :
    Emission p q q' := by
  cases h with
  | edge e v hi he => exact he.emission
  | delivery e hq => exact .emits e q.snap hq
  | quiet hq => subst hq; exact .silent rfl rfl (.inr rfl) fun d hd => by simpa using hd
  | same hq => subst hq; exact .silent rfl rfl (.inl rfl) fun _ => id

/-- A flag that an instruction sets is armed by the opposite step's operation at its literal. -/
theorem InstrOnDecoder.of_flag_set {p : Params} {i : Instr} {q q' : Qdec} (h : InstrOnDecoder p i q q')
    {d : StepEvent} (clear : expects d q = false) (set : expects d q' = true) :
    ∃ e, d ≠ e ∧ i = edgeInstr e (armLiteral p e) := by
  cases h with
  | edge e v hi he =>
    obtain ⟨hne, rfl⟩ := (he.of_expects set).2.resolve_left (by simp [clear])
    exact ⟨e, hne, hi⟩
  | delivery e hq => simp [hq] at set
  | quiet hq => simp [hq, clear] at set
  | same hq => simp [hq, clear] at set

/-- Settles O9: an instruction that emits clears both flags, and one that emits nothing clears neither. -/
theorem flagsAreClearedExactlyByEmittedSteps : Obligations.FlagsAreClearedExactlyByEmittedSteps := by
  intro i s t h
  cases (exec_onDecoder h).emission with
  | emits e v hq => rw [hq]; exact ⟨fun _ => ⟨e, rfl⟩, fun _ => ⟨rfl, rfl⟩⟩
  | silent log pos port flags =>
    refine ⟨?_, fun ⟨e, hlog⟩ => by simp [log] at hlog⟩
    rintro (⟨set, clear⟩ | ⟨set, clear⟩)
    · exact absurd (flags .dec set) (by simp [expects, clear])
    · exact absurd (flags .inc set) (by simp [expects, clear])

/-- Settles O10: each flag's arming operation at the document's literal. -/
theorem flagsAreSetOnlyByArmingOperations : Obligations.FlagsAreSetOnlyByArmingOperations := by
  intro i s t ⟨hA, hB⟩ h
  have hset := exec_onDecoder h
  refine ⟨fun clear set => ?_, fun clear set => ?_⟩
  · obtain ⟨_ | _, hne, hi⟩ := hset.of_flag_set (d := .inc) clear set
    · exact absurd rfl hne
    · rw [hi, ← hA]; rfl
  · obtain ⟨_ | _, hne, hi⟩ := hset.of_flag_set (d := .dec) clear set
    · rw [hi, ← hB]; rfl
    · exact absurd rfl hne

end Sys2Proof.Machine
end

section
/-! Lists of edge operations: arming, bounce, the literals of the document and the exchanged ones (40_qdec.md R80 (c) to (g),
R82). -/

namespace Sys2Proof.Machine

open Sys2Proof

/-! ### The run of a list of QE words -/

theorem afterEdges_cons (s : State) (w : BitVec 3) (ws : List (BitVec 3)) :
    afterEdges s (w :: ws) =
      afterEdges (updateQdec (edgeFor s.params (wordStep w) (wordSnapshot w)) s) ws := by
  rw [afterEdges, exec_decodeQE, edgeOf_eq_edgeFor]

theorem afterEdges_singleton_qdec (s : State) (w : BitVec 3) :
    (afterEdges s [w]).qdec = edgeFor s.params (wordStep w) (wordSnapshot w) s.qdec := by
  rw [afterEdges_cons]
  rfl

theorem afterEdges_pair_qdec (s : State) (u w : BitVec 3) :
    (afterEdges s [u, w]).qdec =
      edgeFor s.params (wordStep w) (wordSnapshot w) (edgeFor s.params (wordStep u) (wordSnapshot u) s.qdec) := by
  rw [afterEdges_cons, afterEdges_singleton_qdec]
  rfl

theorem afterEdges_append (s : State) (us ws : List (BitVec 3)) :
    afterEdges s (us ++ ws) = afterEdges (afterEdges s us) ws := by
  induction us generalizing s with
  | nil => rfl
  | cons u us ih => rw [List.cons_append, afterEdges_cons, afterEdges_cons, ih]

@[simp] theorem afterEdges_params (s : State) (ws : List (BitVec 3)) : (afterEdges s ws).params = s.params := by
  induction ws generalizing s with
  | nil => rfl
  | cons w ws ih => rw [afterEdges_cons, ih, updateQdec_params]

/-- What the last word of a list does. -/
theorem afterEdges_concat_effect (s : State) (ws : List (BitVec 3)) (w : BitVec 3) :
    EdgeEffect s.params (wordStep w) (wordSnapshot w) (afterEdges s ws).qdec (afterEdges s (ws ++ [w])).qdec := by
  rw [afterEdges_append, afterEdges_cons, afterEdges_params]
  exact edgeFor_effect ..

/-! ### Every step was armed since the last one -/

/-- The QE word that emits a step (40_qdec.md R75). -/
def emittingWord : StepEvent → BitVec 3
  | .dec => 0b011#3
  | .inc => 0b111#3

/-- The QE word that arms a step with the document's literals (40_qdec.md R73). -/
def armingWord : StepEvent → BitVec 3
  | .dec => 0b110#3
  | .inc => 0b001#3

theorem eq_emittingWord {d : StepEvent} {w : BitVec 3} (he : wordStep w = d) (hv : wordSnapshot w = 0b11#2) :
    w = emittingWord d := by
  subst he
  revert w
  decide

/-- The document's literal of the operation that can emit a step (00_scope.md R7). -/
def documentLiteral : StepEvent → Snapshot
  | .dec => 0b01#2
  | .inc => 0b10#2

theorem armLiteral_of_literal {p : Params} (lit : Params.literal p) (e : StepEvent) :
    armLiteral p e = documentLiteral e := by
  cases e
  · exact lit.2
  · exact lit.1

theorem eq_armingWord {d : StepEvent} {w : BitVec 3} (hne : d ≠ wordStep w)
    (hv : wordSnapshot w = documentLiteral (wordStep w)) : w = armingWord d := by
  revert w
  cases d <;> decide

/-- In the list the word occurs, and no step has been emitted from just before it on. -/
def OccursSinceLastStep (s : State) (u : BitVec 3) (ws : List (BitVec 3)) : Prop :=
  ∃ us vs, ws = us ++ u :: vs ∧ (afterEdges s ws).qdec.stepLog = (afterEdges s us).qdec.stepLog

theorem occursSinceLastStep_concat_self {s : State} {u : BitVec 3} {ws : List (BitVec 3)}
    (hlog : (afterEdges s (ws ++ [u])).qdec.stepLog = (afterEdges s ws).qdec.stepLog) :
    OccursSinceLastStep s u (ws ++ [u]) := ⟨ws, [], rfl, hlog⟩

theorem OccursSinceLastStep.concat {s : State} {u w : BitVec 3} {ws : List (BitVec 3)}
    (h : OccursSinceLastStep s u ws)
    (hlog : (afterEdges s (ws ++ [w])).qdec.stepLog = (afterEdges s ws).qdec.stepLog) :
    OccursSinceLastStep s u (ws ++ [w]) := by
  obtain ⟨us, vs, rfl, hlast⟩ := h
  exact ⟨us, vs ++ [w], by simp, hlog.trans hlast⟩

/-- A flag that is set was armed with no step emitted since: what every word keeps. -/
theorem occursSinceLastStep_of_expects {s : State} (lit : Params.literal s.params)
    (clear : ∀ d, expects d s.qdec = false) {d : StepEvent} (ws : List (BitVec 3))
    (hflag : expects d (afterEdges s ws).qdec = true) : OccursSinceLastStep s (armingWord d) ws := by
  induction ws using List.reverseRecOn with
  | nil => exact absurd hflag (by simp [afterEdges, clear])
  | append_singleton ws w ih =>
    obtain ⟨hlog, hbefore | ⟨hne, hv⟩⟩ := (afterEdges_concat_effect s ws w).of_expects hflag
    · exact (ih hbefore).concat hlog
    · obtain rfl := eq_armingWord hne (hv.trans (armLiteral_of_literal lit _))
      exact occursSinceLastStep_concat_self hlog

theorem expects_eq_false {q : Qdec} (hA : q.expectA = false) (hB : q.expectB = false) (d : StepEvent) :
    expects d q = false := by
  cases d
  · exact hB
  · exact hA

/-- Settles O11, for either step, by induction on the words before it. -/
theorem everyStepIsArmedSinceTheLastOne : Obligations.EveryStepIsArmedSinceTheLastOne := by
  intro s ws w lit hA hB
  have armed (d : StepEvent)
      (hlog : (afterEdges s (ws ++ [w])).qdec.stepLog = (afterEdges s ws).qdec.stepLog ++ [d]) :
      w = emittingWord d ∧ OccursSinceLastStep s (armingWord d) ws := by
    obtain ⟨he, hv, hflag, -⟩ := (afterEdges_concat_effect s ws w).of_logged hlog
    exact ⟨eq_emittingWord he hv, occursSinceLastStep_of_expects lit (expects_eq_false hA hB) ws hflag⟩
  exact ⟨armed .dec, armed .inc⟩

/-! ### Coherent snapshots -/

/-- No coherent word is at its operation's literal of the document. -/
theorem wordSnapshot_ne_documentLiteral {w : BitVec 3} (hw : coherent w = true) :
    wordSnapshot w ≠ documentLiteral (wordStep w) := by
  revert w
  decide

/-- Settles O13, by induction on the words: the operation of each rests. -/
theorem coherentSnapshotsNeverEmitAStep : Obligations.CoherentSnapshotsNeverEmitAStep := by
  intro s ws lit hA hB hws
  induction ws generalizing s with
  | nil => rfl
  | cons w ws ih =>
    obtain ⟨hw, htail⟩ := List.forall_mem_cons.mp hws
    have hrests : Rests s.params (wordStep w) (wordSnapshot w) s.qdec :=
      ⟨by simp [expects_eq_false hA hB], armLiteral_of_literal lit _ ▸ wordSnapshot_ne_documentLiteral hw⟩
    rw [afterEdges_cons, updateQdec, edgeFor_of_rests hrests]
    exact ih _ lit hA hB htail

/-! ### Bounce -/

/-- An operation that rests leaves all but `snap` and the port. -/
theorem lasting_edgeFor_of_rests {p : Params} {e : StepEvent} {v : Snapshot} {q : Qdec} (h : Rests p e v q) :
    (edgeFor p e v q).lasting = q.lasting := by
  rw [edgeFor_of_rests h]
  rfl

/-- After an emission and after a rest the operation rests, and a literal arms what is armed already. -/
theorem lasting_edgeFor_twice {p : Params} {e : StepEvent} (hlit : armLiteral p e ≠ 0b11#2) (v : Snapshot) (q : Qdec) :
    (edgeFor p e v (edgeFor p e v q)).lasting = (edgeFor p e v q).lasting := by
  cases edgeFor_effect p e v q with
  | emits hv armed hq => exact lasting_edgeFor_of_rests ⟨by simp [hq], hv ▸ hlit.symm⟩
  | arms idle hv hq =>
    rw [edgeFor_of_literal (fun hemit => hlit (hv ▸ hemit.1)) hv, hq]
    cases e <;> rfl
  | rests h hq => exact lasting_edgeFor_of_rests ⟨by simpa [hq] using h.1, h.2⟩

/-- Settles O12, for either line. -/
theorem aRepeatedEdgeChangesNothingFurther : Obligations.ARepeatedEdgeChangesNothingFurther := by
  intro s w hA hB
  have hlit (e : StepEvent) : armLiteral s.params e ≠ 0b11#2 := by
    cases e
    · exact hB
    · exact hA
  rw [afterEdges_pair_qdec, afterEdges_singleton_qdec]
  exact lasting_edgeFor_twice (hlit _) ..

/-! ### The exchanged literals -/

/-- An operation at its literal and then the opposite one at the detent emit a step. -/
theorem stepLog_of_literal_then_detent {p : Params} {d e : StepEvent} {v : Snapshot} (hne : d ≠ e)
    (hv : v = armLiteral p e) (hlit : v ≠ 0b11#2) (q : Qdec) :
    (edgeFor p d 0b11#2 (edgeFor p e v q)).stepLog = q.stepLog ++ [d] := by
  rw [edgeFor_of_literal (fun hemit => hlit hemit.1) hv, edgeFor_of_armed rfl (by simp [hne])]
  simp

/-- Settles O14: each cycle arms at its first word and emits at its second. -/
theorem exchangedLiteralsDecodeTheIdealCycles : Obligations.ExchangedLiteralsDecodeTheIdealCycles := by
  intro s hA hB _ _
  rw [afterEdges_pair_qdec, afterEdges_pair_qdec]
  exact ⟨stepLog_of_literal_then_detent (d := .inc) (e := .dec) (by decide) hA.symm (by decide) s.qdec,
    stepLog_of_literal_then_detent (d := .dec) (e := .inc) (by decide) hB.symm (by decide) s.qdec⟩

end Sys2Proof.Machine
end

section
/-! From the encoder lines to the EDGE operations: edges captured, notifications serviced, two of them in either order
(40_qdec.md R76 to R80 (f)). -/

namespace Sys2Proof.Machine

open Sys2Proof

/-- Settles O17: each pending bit is what `captureEdge` says. -/
theorem risingEdgesAreCaptured : Obligations.RisingEdgesAreCaptured := fun _ _ _ _ hs =>
  ⟨_, step_of_inputs hs, rfl, rfl, rfl, rfl, rfl, rfl, rfl, rfl⟩

/-! ### One service -/

theorem serviceMoveA_of_pending {s : State} (h : s.qdec.pendA = true) :
    serviceMoveA s = exec (.edgeA s.snapshot) (takeA s) := if_pos h

theorem serviceMoveB_of_pending {s : State} (h : s.qdec.pendB = true) :
    serviceMoveB s = exec (.edgeB s.snapshot) (takeB s) := if_pos h

theorem serviceMoveA_of_not_pending {s : State} (h : s.qdec.pendA = false) : serviceMoveA s = .next s :=
  if_neg (ne_true_of_eq_false h)

theorem serviceMoveB_of_not_pending {s : State} (h : s.qdec.pendB = false) : serviceMoveB s = .next s :=
  if_neg (ne_true_of_eq_false h)

/-- Settles O18: the service of the state with the event taken and the port quiet. -/
theorem servicePerformsTheEdgeOperation : Obligations.ServicePerformsTheEdgeOperation := fun _ _ =>
  ⟨fun hs hp => (step_of_inputs hs).trans (serviceMoveA_of_pending hp),
    fun hs hp => (step_of_inputs hs).trans (serviceMoveB_of_pending hp),
    fun hs hp => (step_of_inputs hs).trans (serviceMoveA_of_not_pending hp),
    fun hs hp => (step_of_inputs hs).trans (serviceMoveB_of_not_pending hp)⟩

/-! ### A notification by the step its operation can emit -/

/-- The service of the notification whose operation can emit `e`. -/
def serviceEvent : StepEvent → Event
  | .dec => .serviceA
  | .inc => .serviceB

/-- The pending bit of that notification. -/
def pending : StepEvent → Qdec → Bool
  | .dec => Qdec.pendA
  | .inc => Qdec.pendB

/-- That bit cleared. -/
def clearPending : StepEvent → Qdec → Qdec
  | .dec => fun q => { q with pendA := false }
  | .inc => fun q => { q with pendB := false }

theorem pending_clearPending {d e : StepEvent} (hne : e ≠ d) (q : Qdec) :
    pending e (clearPending d q) = pending e q := by
  cases d <;> cases e
  · exact absurd rfl hne
  · rfl
  · rfl
  · exact absurd rfl hne

theorem clearPending_both {d e : StepEvent} (hne : d ≠ e) (q : Qdec) :
    clearPending e (clearPending d q) = { q with pendA := false, pendB := false } := by
  cases d <;> cases e
  · exact absurd rfl hne
  · rfl
  · rfl
  · exact absurd rfl hne

/-! ### What an operation reads -/

section
variable (p : Params) (d e : StepEvent) (v u : Snapshot) (q : Qdec)

theorem edgeFor_noStep : edgeFor p e v (noStep q) = edgeFor p e v q := by
  rw [edgeFor_eq, edgeFor_eq, expects_noStep]
  cases e <;> rfl

theorem edgeFor_snap : edgeFor p e v { q with snap := u } = edgeFor p e v q := by
  rw [edgeFor_eq, edgeFor_eq, expects_snap]

theorem edgeFor_clearPending : edgeFor p e v (clearPending d q) = clearPending d (edgeFor p e v q) := by
  have hflag : expects e (clearPending d q) = expects e q := by cases d <;> cases e <;> rfl
  rw [edgeFor_eq, edgeFor_eq, hflag]
  cases d <;> cases e <;> (split_ifs <;> rfl)

theorem pending_edgeFor : pending d (edgeFor p e v q) = pending d q := by
  have hA := edgeAOf_pending p v q
  have hB := edgeBOf_pending p v q
  cases d <;> cases e <;> simp [pending, edgeFor, hA, hB]

end

/-! ### Two services -/

theorem step_service {s : State} {e : StepEvent} {rest : List Event} (hs : s.inputs = serviceEvent e :: rest)
    (hp : pending e s.qdec = true) :
    step s = .next { s with inputs := rest, qdec := clearPending e (edgeFor s.params e s.snapshot s.qdec) } := by
  rw [← edgeFor_noStep, ← edgeFor_clearPending]
  cases e
  · exact (step_of_inputs hs).trans (serviceMoveB_of_pending hp)
  · exact (step_of_inputs hs).trans (serviceMoveA_of_pending hp)

theorem run_two_services {s : State} {d e : StepEvent} (hne : d ≠ e) (hd : pending d s.qdec = true)
    (he : pending e s.qdec = true) :
    core.run 2 { s with inputs := [serviceEvent d, serviceEvent e] } = .next { s with
      inputs := []
      qdec := { edgeFor s.params e s.snapshot (edgeFor s.params d s.snapshot s.qdec) with
        pendA := false, pendB := false } } := by
  have hother : pending e (clearPending d (edgeFor s.params d s.snapshot s.qdec)) = true := by
    rw [pending_clearPending hne.symm, pending_edgeFor, he]
  have hfirst := step_service (s := { s with inputs := [serviceEvent d, serviceEvent e] }) rfl hd
  have hsecond := step_service (s := { s with
    inputs := [serviceEvent e], qdec := clearPending d (edgeFor s.params d s.snapshot s.qdec) }) rfl hother
  rw [← clearPending_both hne, ← edgeFor_clearPending]
  exact (run_succ_of_step hfirst 1).trans (run_succ_of_step hsecond 0)

/-- An operation that rests rests after the other one at the same snapshot, where no literal is the detent. -/
theorem Rests.edgeFor {p : Params} (hlit : ∀ d, armLiteral p d ≠ 0b11#2) {e : StepEvent} {v : Snapshot} {q : Qdec}
    (h : Rests p e v q) (d : StepEvent) : Rests p e v (edgeFor p d v q) := by
  refine ⟨fun ⟨hv, hflag⟩ => ?_, h.2⟩
  obtain ⟨-, hbefore | ⟨-, harm⟩⟩ := (edgeFor_effect p d v q).of_expects hflag
  · exact h.1 ⟨hv, hbefore⟩
  · exact hlit d (harm ▸ hv)

/-- The operation that rests changes nothing, before the other one or after it. -/
theorem lasting_edgeFor_comm {p : Params} (hlit : ∀ d, armLiteral p d ≠ 0b11#2) {e : StepEvent} {v : Snapshot}
    {q : Qdec} (h : Rests p e v q) (d : StepEvent) :
    (edgeFor p d v (edgeFor p e v q)).lasting = (edgeFor p e v (edgeFor p d v q)).lasting := by
  rw [edgeFor_of_rests h, edgeFor_noStep, edgeFor_snap, lasting_edgeFor_of_rests (h.edgeFor hlit d)]

theorem armLiteral_ne_detent {p : Params} (lit : Params.literal p) (e : StepEvent) : armLiteral p e ≠ 0b11#2 := by
  rw [armLiteral_of_literal lit]
  cases e <;> decide

/-- With the document's literals and a flag clear, one of the two operations rests at any snapshot. -/
theorem rests_or_rests {p : Params} (lit : Params.literal p) {q : Qdec}
    (hflags : q.expectA = false ∨ q.expectB = false) (v : Snapshot) : Rests p .dec v q ∨ Rests p .inc v q := by
  by_cases hv : v = 0b11#2
  · have hne (e : StepEvent) : v ≠ armLiteral p e := hv ▸ (armLiteral_ne_detent lit e).symm
    exact hflags.imp (fun hA => ⟨by simp [expects, hA], hne _⟩) (fun hB => ⟨by simp [expects, hB], hne _⟩)
  · by_cases hA : v = armLiteral p .dec
    · refine .inr ⟨fun h => hv h.1, ?_⟩
      rw [hA, armLiteral_of_literal lit, armLiteral_of_literal lit]
      decide
    · exact .inl ⟨fun h => hv h.1, hA⟩

theorem lasting_pending_congr {q q' : Qdec} (h : q.lasting = q'.lasting) (a b : Bool) :
    Qdec.lasting { q with pendA := a, pendB := b } = Qdec.lasting { q' with pendA := a, pendB := b } := by
  simp only [Qdec.lasting, Prod.mk.injEq] at h ⊢
  simp [h]

/-- Settles O19: whichever operation rests, it may go first or second. -/
theorem bothServiceOrdersAgreeUnlessBothFlagsAreSet : Obligations.BothServiceOrdersAgreeUnlessBothFlagsAreSet := by
  intro s lit hA hB hflags
  have hlit := armLiteral_ne_detent lit
  refine ⟨_, _, run_two_services (d := .dec) (e := .inc) (by decide) hA hB,
    run_two_services (d := .inc) (e := .dec) (by decide) hB hA, ?_, rfl, rfl⟩
  have hcomm : (edgeFor s.params .inc s.snapshot (edgeFor s.params .dec s.snapshot s.qdec)).lasting =
      (edgeFor s.params .dec s.snapshot (edgeFor s.params .inc s.snapshot s.qdec)).lasting :=
    (rests_or_rests lit hflags s.snapshot).elim (fun h => lasting_edgeFor_comm hlit h .inc)
      (fun h => (lasting_edgeFor_comm hlit h .dec).symm)
  exact lasting_pending_congr hcomm false false

end Sys2Proof.Machine
end

section
/-! The rows of the micro-step table: the sequencer runs them, and a row's write takes each line from the level of its place to the
level of the next (41_ddsser.md R97, R101 to R103). -/

namespace Sys2Proof.Machine

open Sys2Proof

/-! ### The table and the sequencer -/

theorem seqNext_load {m : Nat} (h : m + 1 < 122) :
    seqNext (.load ⟨m, Nat.lt_of_succ_lt h⟩) = .load ⟨m + 1, h⟩ := dif_pos h

theorem microRow_init (m : Fin 4) (F : Frame) : MicroRow (.init m) F (initWrite m) (seqNext (.init m)) := by
  fin_cases m
  · exact .init0 F
  · exact .init1 F
  · exact .init2 F
  · exact .init3 F

theorem microRow_load (m : Fin 122) (F : Frame) : MicroRow (.load m) F (loadWrite F m) (seqNext (.load m)) := by
  obtain ⟨m, hm⟩ := m
  rcases show m < 120 ∨ m = 120 ∨ m = 121 by omega with h | rfl | rfl
  · rw [seqNext_load (by omega), loadWrite, if_pos h]
    rcases show m % 3 = 0 ∨ m % 3 = 1 ∨ m % 3 = 2 by omega with h3 | h3 | h3 <;> rw [h3]
    · exact .dataBit F m h h3
    · exact .clockHigh F m h h3
    · exact .clockLow F m h h3
  · exact .commitHigh F
  · exact .commitLow F

/-- The write that is due and the place that follows are a row of the table. -/
theorem microRow_of_due {d : Ddsser} {e : PinEntry} (due : dueWrite d = some e) :
    MicroRow d.seq d.shreg e (seqNext d.seq) := by
  unfold dueWrite at due
  split at due
  next => cases due
  next m hseq => cases due; exact hseq ▸ microRow_init m d.shreg
  next m hseq => cases due; exact hseq ▸ microRow_load m d.shreg

/-- A row of the table is the write that is due and the place that follows. -/
theorem MicroRow.due {d : Ddsser} {e : PinEntry} {q : Seq} (h : MicroRow d.seq d.shreg e q) :
    dueWrite d = some e ∧ seqNext d.seq = q := by
  obtain ⟨_, _, _, _, seq, F, _⟩ := d
  cases h with
  | init0 | init1 | init2 | init3 | commitHigh | commitLow => exact ⟨rfl, rfl⟩
  | dataBit _ m h h3 | clockHigh _ m h h3 | clockLow _ m h h3 =>
    exact ⟨by simp [dueWrite, loadWrite, h, h3], seqNext_load (by omega)⟩

/-- Settles O25: the micro-step makes the write that is due, which is the row's. -/
theorem aMicroStepIsTheTablesPinWrite : Obligations.AMicroStepIsTheTablesPinWrite := by
  refine ⟨fun q F hq => ?_, fun s rest e q hs hrow => ?_⟩
  · cases q with
    | idle => exact absurd rfl hq
    | init m => exact ⟨_, _, microRow_init m F⟩
    | load m => exact ⟨_, _, microRow_load m F⟩
  · obtain ⟨hdue, hnext⟩ := hrow.due
    have hser : microStep s.ser = advance (driveLine s.ser e) := by simp only [microStep, hdue]
    refine ⟨_, (step_of_inputs hs).trans (microMove_eq _), ?_, ?_, rfl, rfl⟩
    · exact ⟨by simp [hser], by simp [hser], fun l hl => by simp [hser, hl], by simp [hser], rfl, rfl, rfl, rfl⟩
    · simp [hser, hnext]

/-! ### The lines follow the sequencer -/

/-- A zero control byte makes the last bit sent zero. -/
theorem ControlByteZero.lastBit {d : Ddsser} (h : ControlByteZero d) : d.shreg.getLsbD 39 = false := by
  have hbit : (d.shreg.extractLsb' 32 8).getLsbD 7 = (Config.ctrlByte).getLsbD 7 := congrArg (BitVec.getLsbD · 7) h
  simpa [Config.ctrlByte] using hbit

/-- Within the forty groups only a group's first write is to `DATA`, so the level there stands over the other two. -/
theorem lineAt_data_succ {m : Nat} (F : Frame) (h : m < 120) (h3 : m % 3 ≠ 0) :
    lineAt F (.load ⟨m + 1, by omega⟩) .data = lineAt F (.load ⟨m, by omega⟩) .data := by
  have hgroup : m / 3 = (m - 1) / 3 := by omega
  have hstarted : m ≠ 0 := by omega
  simp [lineAt, hgroup, hstarted]

/-- `FQ_UD` is low throughout the forty groups and up to the commit pulse. -/
theorem lineAt_fqUd_succ {m : Nat} (F : Frame) (h : m < 120) :
    lineAt F (.load ⟨m + 1, by omega⟩) .fqUd = lineAt F (.load ⟨m, by omega⟩) .fqUd :=
  decide_eq_decide.mpr (show m + 1 = 121 ↔ m = 121 by omega)

/-- A row's write takes each line from the level of the row's place to the level of the next; the last place leaves `DATA` at the
frame's last bit, which is zero as at rest. -/
theorem MicroRow.lineAt_next {q q' : Seq} {F : Frame} {e : PinEntry} (h : MicroRow q F e q')
    (hlast : F.getLsbD 39 = false) (l : OutLine) :
    lineAt F q' l = if l = e.line then e.level else lineAt F q l := by
  cases h with
  | init0 | init1 | init2 | init3 => cases l <;> rfl
  | dataBit _ m h h3 =>
    cases l with
    | data => simp [lineAt, show min (m / 3) 39 = m / 3 by omega]
    | clk => exact decide_eq_decide.mpr (show (m + 1) % 3 = 2 ↔ m % 3 = 2 by omega)
    | fqUd => exact lineAt_fqUd_succ F h
    | reset => rfl
  | clockHigh _ m h h3 =>
    cases l with
    | data => exact lineAt_data_succ F h (by omega)
    | clk => exact decide_eq_true (show (m + 1) % 3 = 2 by omega)
    | fqUd => exact lineAt_fqUd_succ F h
    | reset => rfl
  | clockLow _ m h h3 =>
    cases l with
    | data => exact lineAt_data_succ F h (by omega)
    | clk => exact decide_eq_false (show (m + 1) % 3 ≠ 2 by omega)
    | fqUd => exact lineAt_fqUd_succ F h
    | reset => rfl
  | commitHigh => cases l <;> rfl
  | commitLow =>
    cases l with
    | data => exact hlast.symm
    | clk | fqUd | reset => rfl

theorem SerializerInv.micro {d : Ddsser} {e : PinEntry} (h : SerializerInv d) (due : dueWrite d = some e) :
    SerializerInv (advance (driveLine d e)) := by
  obtain ⟨hctrl, hlines⟩ := h
  refine ⟨?_, fun l => ?_⟩
  · simpa [ControlByteZero] using hctrl
  · simp [(microRow_of_due due).lineAt_next hctrl.lastBit l, hlines l]

theorem SerializerInv.beginInit {d : Ddsser} (h : SerializerInv d) (idle : d.seq = .idle) :
    SerializerInv (beginInit d) := by
  obtain ⟨hctrl, hlines⟩ := h
  refine ⟨hctrl, fun l => ?_⟩
  rw [lineLevel_beginInit, hlines, idle]
  cases l <;> rfl

theorem controlByte_frameOf (w : TuningWord) : (frameOf w).extractLsb' 32 8 = Config.ctrlByte :=
  BitVec.extractLsb'_append_eq_left

theorem SerializerInv.beginFrame {d : Ddsser} (h : SerializerInv d) (idle : d.seq = .idle) (w : TuningWord) :
    SerializerInv (beginFrame w d) := by
  obtain ⟨-, hlines⟩ := h
  refine ⟨controlByte_frameOf w, fun l => ?_⟩
  rw [lineLevel_beginFrame, hlines, idle]
  cases l <;> rfl

/-- Settles O34, by what a step can do to DDSSER. -/
theorem everyStepKeepsTheLinesOnTheSequencer : Obligations.EveryStepKeepsTheLinesOnTheSequencer := by
  intro s t h hstep
  cases (step_effect hstep).serializer with
  | same hs _ => rwa [hs]
  | micro e due hs _ => rw [hs]; exact h.micro due
  | init _ idle hs _ => rw [hs]; exact h.beginInit idle
  | load f _ idle _ hs _ => rw [hs]; exact h.beginFrame idle _
  | reset hs _ => rw [hs]; exact serializerInv_afterReset

end Sys2Proof.Machine
end

section
/-! The receiver and the lines: what the receiver takes of a pin write, what commits, and what changes `DATA` (41_ddsser.md R102,
R103, R108 to R110). -/

namespace Sys2Proof.Machine

open Sys2Proof

/-! ### The receiver's reaction -/

theorem observe_clkRise {d : Ddsser} (low : d.clk = false) (r : Receiver) :
    observe d ⟨.clk, true⟩ r = clockIn d.data r := by
  simp [observe, low]

theorem observe_fqUdRise {d : Ddsser} (low : d.fqUd = false) (r : Receiver) :
    observe d ⟨.fqUd, true⟩ r = commit r := by
  simp [observe, low]

/-- A write that raises neither `CLK` nor `FQ_UD` leaves the receiver as it is. -/
theorem observe_noRise {d : Ddsser} {e : PinEntry} (hclk : ¬(e = ⟨.clk, true⟩ ∧ d.clk = false))
    (hfqUd : ¬(e = ⟨.fqUd, true⟩ ∧ d.fqUd = false)) (r : Receiver) : observe d e r = r := by
  obtain ⟨line, level⟩ := e
  cases line with
  | data | reset => rfl
  | clk =>
    cases level with
    | false => rfl
    | true => exact if_pos (by simpa using hclk)
  | fqUd =>
    cases level with
    | false => rfl
    | true => exact if_pos (by simpa using hfqUd)

/-- What is committed changes at a rise of `FQ_UD` only. -/
theorem fqUdRise_of_committed_ne {d : Ddsser} {e : PinEntry} {r : Receiver}
    (h : (observe d e r).committed ≠ r.committed) : e = ⟨.fqUd, true⟩ ∧ d.fqUd = false := by
  by_contra hfqUd
  by_cases hclk : e = ⟨.clk, true⟩ ∧ d.clk = false
  · obtain ⟨rfl, low⟩ := hclk
    rw [observe_clkRise low] at h
    exact h rfl
  · rw [observe_noRise hclk hfqUd] at h
    exact h rfl

/-! ### The shift -/

theorem shiftIn_getLsbD (b : Level) (F : Frame) (k : Nat) :
    (shiftIn b F).getLsbD k = if k = 39 then b else decide (k < 39) && F.getLsbD (k + 1) := by
  rw [shiftIn, BitVec.getLsbD_cons, BitVec.getLsbD_extractLsb', Nat.add_comm 1 k]

/-- Settles O24, by the three kinds of write that the receiver tells apart. -/
theorem theReceiverActsOnRisingClkAndFqUdOnly : Obligations.TheReceiverActsOnRisingClkAndFqUdOnly := by
  intro s t e h
  rw [exec_pinCode] at h
  cases h
  refine ⟨?_, ?_, fun hclk hfqUd => observe_noRise hclk hfqUd s.rx⟩
  · rintro ⟨rfl, low⟩
    rw [pinWrite_rx, observe_clkRise low]
    refine ⟨?_, fun k hk => ?_, rfl, rfl⟩
    · exact (shiftIn_getLsbD ..).trans (if_pos rfl)
    · simp [shiftIn_getLsbD, hk, hk.ne]
  · rintro ⟨rfl, low⟩
    rw [pinWrite_rx, observe_fqUdRise low]
    exact ⟨rfl, rfl, rfl⟩

/-! ### The commit pulse -/

theorem MicroRow.of_fqUdHigh {q q' : Seq} {F : Frame} (h : MicroRow q F ⟨.fqUd, true⟩ q') :
    q = .load 120 ∧ q' = .load 121 := by
  cases h
  exact ⟨rfl, rfl⟩

/-- Settles O36: of what a step can do only a micro-step moves the receiver, and of the table's rows only one raises `FQ_UD`. -/
theorem onlyTheCommitPulseChangesTheOutput : Obligations.OnlyTheCommitPulseChangesTheOutput := by
  intro s t hstep hne
  cases (step_effect hstep).serializer with
  | micro e due hs hr =>
    rw [hr] at hne
    obtain ⟨rfl, low⟩ := fqUdRise_of_committed_ne hne
    obtain ⟨hseq, hnext⟩ := (microRow_of_due due).of_fqUdHigh
    rw [hs, hr, observe_fqUdRise low]
    exact ⟨hseq, hnext, low, rfl, rfl⟩
  | same _ hr | init _ _ _ hr | load _ _ _ _ _ hr | reset _ hr => exact absurd (congrArg _ hr) hne

/-! ### What writes a line -/

/-- A move of DDSSER that is not the block's reset: a micro-step, or one that writes no line. -/
def MovesLinesByMicroStep (d d' : Ddsser) : Prop := d' = microStep d ∨ ∀ l, lineLevel d' l = lineLevel d l

theorem MovesLinesByMicroStep.of_eq {d d' : Ddsser} (h : d' = d) : MovesLinesByMicroStep d d' :=
  .inr fun _ => h ▸ rfl

theorem microMove_lines {s t : State} (h : microMove s = .next t) : MovesLinesByMicroStep s.ser t.ser := by
  rw [microMove_eq] at h
  cases h
  exact .inl rfl

theorem decoderSide_lines {s t : State} {e : Event} (he : e.decoderSide = true) (h : eventMove e s = .next t) :
    MovesLinesByMicroStep s.ser t.ser := by
  rw [eventMove_decoderSide he] at h
  cases h
  exact .of_eq rfl

theorem eventMove_lines {s t : State} {e : Event} (he : e ≠ .blockReset true) (h : eventMove e s = .next t) :
    MovesLinesByMicroStep s.ser t.ser := by
  cases e with
  | qe | lines | serviceA | serviceB => exact decoderSide_lines rfl h
  | sc w =>
    rcases commandMove_next h with ⟨-, rfl⟩ | ⟨-, -, -, rfl⟩ | ⟨-, -, -, -, rfl⟩
    · exact .of_eq rfl
    · exact .inr (lineLevel_beginInit _)
    · exact .inr (lineLevel_beginFrame _ _)
  | micro => exact microMove_lines h
  | run =>
    rw [eventMove, runMove] at h
    split at h
    · obtain ⟨u, hu, rfl⟩ := onNext_eq_next_iff.mp h
      have hser := microMove_lines hu
      split <;> exact hser
    · cases h
      exact .of_eq rfl
  | blockReset applied =>
    cases applied with
    | false => cases h; exact .of_eq rfl
    | true => exact absurd rfl he
  | press b | release b => cases h; exact .of_eq (setButton_ser ..)
  | call c =>
    rw [eventMove, callMove] at h
    split at h
    · cases h
    · cases h
      exact .of_eq rfl
  | loop l =>
    rcases loopMove_next h with ⟨-, rfl⟩ | ⟨-, -, rfl⟩ | ⟨-, -, -, rfl⟩ | ⟨-, -, rfl⟩
    · exact .of_eq rfl
    · cases s.inReset
      · exact .inr (lineLevel_beginInit _)
      · exact .of_eq rfl
    · cases s.inReset
      · exact .inr (lineLevel_beginFrame _ _)
      · exact .of_eq rfl
    · exact .of_eq (pollMove_ser l s)

theorem ownMove_lines {s t : State} (h : ownMove s = .next t) : MovesLinesByMicroStep s.ser t.ser := by
  unfold ownMove at h
  split at h
  · dsimp only at h
    split at h
    · exact decoderSide_lines (s := { s with draws := s.draws + 1 }) (e := .serviceA) rfl h
    · exact decoderSide_lines (s := { s with draws := s.draws + 1 }) (e := .serviceB) rfl h
  · split at h
    · exact decoderSide_lines (e := .serviceA) rfl h
    · split at h
      · exact decoderSide_lines (e := .serviceB) rfl h
      · split at h
        · exact microMove_lines h
        · cases h
          exact .of_eq rfl

/-- Unless the block's reset is applied, a step writes a line by a micro-step or not at all. -/
theorem step_lines {s t : State} (h : step s = .next t) (live : s.inputs.head? ≠ some (.blockReset true)) :
    MovesLinesByMicroStep s.ser t.ser := by
  unfold step at h
  split at h
  · exact ownMove_lines (s := quietStep s) h
  next e rest hs =>
    have he : e ≠ .blockReset true := fun heq => live (by rw [hs, heq]; rfl)
    exact eventMove_lines (s := quietStep { s with inputs := rest }) he h

/-! ### `DATA` over the clock pulse -/

theorem MicroRow.of_data {q q' : Seq} {F : Frame} {e : PinEntry} (h : MicroRow q F e q') (hdata : e.line = .data) :
    ∃ m : Fin 122, q = .load m ∧ m.val < 120 ∧ m.val % 3 = 0 := by
  cases h with
  | dataBit _ m h h3 => exact ⟨_, rfl, h, h3⟩
  | init0 | init1 | init2 | init3 | clockHigh | clockLow | commitHigh | commitLow => cases hdata

/-- A micro-step that changes a line makes the write that is due, to that line and to no other. -/
theorem due_of_lineLevel_ne {d : Ddsser} {l : OutLine} (h : lineLevel (microStep d) l ≠ lineLevel d l) :
    ∃ e, dueWrite d = some e ∧ e.line = l ∧ ∀ l' ≠ l, lineLevel (microStep d) l' = lineLevel d l' := by
  cases hdue : dueWrite d with
  | none => exact absurd (by simp [microStep, hdue]) h
  | some e =>
    have hmove : ∀ l', lineLevel (microStep d) l' = if l' = e.line then e.level else lineLevel d l' := fun l' => by
      simp [microStep, hdue]
    have hl : l = e.line := by
      by_contra hl
      exact h (by rw [hmove, if_neg hl])
    exact ⟨e, rfl, hl.symm, fun l' hl' => by rw [hmove, if_neg (hl ▸ hl')]⟩

/-- Settles O37: the line that changes is the one that the table's row writes, and only the first write of a group is to `DATA`. -/
theorem dataIsStableOverTheClockPulse : Obligations.DataIsStableOverTheClockPulse := by
  rintro s t ⟨-, hlines⟩ hstep live hne
  replace hne : lineLevel t.ser .data ≠ lineLevel s.ser .data := hne
  rcases step_lines hstep live with hs | hsame
  · rw [hs] at hne
    obtain ⟨e, due, hdata, hother⟩ := due_of_lineLevel_ne hne
    obtain ⟨m, hseq, hm, h3⟩ := (microRow_of_due due).of_data hdata
    have low : lineLevel s.ser .clk = false := by
      rw [hlines, hseq]
      exact decide_eq_false (by omega)
    have hclk : lineLevel t.ser .clk = lineLevel s.ser .clk := hs ▸ hother .clk (by decide)
    exact ⟨⟨m, hseq, hm, h3⟩, low, hclk.trans low⟩
  · exact absurd (hsame .data) hne

end Sys2Proof.Machine
end

section
/-! The tuning word and its frame: the rounded quotient, its range, and the frequency it stands for (41_ddsser.md R91 to R93,
R111). -/

namespace Sys2Proof.Machine

open Sys2Proof

/-! ### The rounded quotient -/

theorem tuningNumber_lt_iff (f : Nat) : tuningNumber f < 2 ^ 32 ↔ f ≤ 124999999 := by
  rw [tuningNumber_eq]
  omega

/-- The tuning number is nearer than half a unit: the numerator and the clock share the factor 64, half the clock has 32. -/
theorem tuningNumber_nearest (f : Nat) :
    2 * (tuningNumber f * 125000000 : Int) - 2 * (f * 4294967296) < 125000000 ∧
      2 * (f * 4294967296 : Int) - 2 * (tuningNumber f * 125000000) < 125000000 := by
  rw [tuningNumber_eq]
  omega

/-- One hertz is more than 34 units of the word. -/
theorem tuningNumber_strictMono : StrictMono tuningNumber := by
  intro f g h
  rw [tuningNumber_eq, tuningNumber_eq]
  omega

/-- Settles O27. -/
theorem theTuningWordFitsExactlyUpToTheMaximum : Obligations.TheTuningWordFitsExactlyUpToTheMaximum :=
  ⟨tuningNumber_lt_iff, by decide⟩

theorem toNat_tuningWord {f : Nat} (hf : f ≤ 124999999) : (tuningWord f).toNat = tuningNumber f :=
  (BitVec.toNat_ofNat ..).trans (Nat.mod_eq_of_lt ((tuningNumber_lt_iff f).mpr hf))

/-- Settles O26, by the tuning number, which fits the word. -/
theorem theTuningWordIsTheNearestInteger : Obligations.TheTuningWordIsTheNearestInteger := by
  refine ⟨fun f hf => ?_, fun f g h hg => ?_, by decide, by decide, by decide⟩
  · rw [toNat_tuningWord hf]
    exact ⟨tuningNumber_eq f, tuningNumber_nearest f⟩
  · rw [toNat_tuningWord (h.le.trans hg), toNat_tuningWord hg]
    exact tuningNumber_strictMono h

/-! ### The frame -/

theorem frameOf_tuningWord {f : Nat} (hf : f ≤ 124999999) :
    frameOf (tuningWord f) = BitVec.ofNat 40 (tuningNumber f) := by
  have hword := toNat_tuningWord hf
  apply BitVec.eq_of_toNat_eq
  rw [frameOf_eq_setWidth, BitVec.toNat_setWidth, hword, BitVec.toNat_ofNat]

/-- Settles O20, by what an idle DDSSER accepts. -/
theorem commandsAreAcceptedWhenIdle : Obligations.CommandsAreAcceptedWhenIdle := by
  refine ⟨fun _ _ => rfl, fun s idle => ⟨fun _ => accept_of_idle idle, fun f hf => ?_⟩⟩
  rw [← tuningNumber_eq, ← frameOf_tuningWord hf]
  exact acceptLoad_eq_next_iff.mpr ⟨idle, hf, rfl⟩

/-! ### The output frequency -/

theorem outputFrequency_frameOf (w : TuningWord) :
    outputFrequency (frameOf w) = some ((w.toNat : ℚ) * 125000000 / 2 ^ 32) := by
  have hword : (frameOf w).extractLsb' 0 32 = w := BitVec.extractLsb'_append_eq_right
  rw [outputFrequency, if_pos (controlByte_frameOf w), hword, Nat.cast_mul, Nat.cast_pow]
  rfl

/-- The tuning number's distance from the quotient, in hertz. -/
theorem abs_tuningNumber_mul_sub_le (f : Nat) :
    |(tuningNumber f : ℚ) * 125000000 / 2 ^ 32 - f| ≤ 125000000 / 2 ^ 33 := by
  obtain ⟨hup, hdown⟩ := tuningNumber_nearest f
  have hup' : 2 * (tuningNumber f * 125000000 : ℚ) - 2 * (f * 4294967296) < 125000000 := by
    simpa using (Int.cast_lt (R := ℚ)).mpr hup
  have hdown' : 2 * (f * 4294967296 : ℚ) - 2 * (tuningNumber f * 125000000) < 125000000 := by
    simpa using (Int.cast_lt (R := ℚ)).mpr hdown
  rw [abs_le]
  constructor <;> linarith

/-- Settles O28, by the word's distance from the quotient. -/
theorem theCommittedFrequencyIsWithinHalfAUnit : Obligations.TheCommittedFrequencyIsWithinHalfAUnit := by
  intro f hf
  refine ⟨_, outputFrequency_frameOf _, ?_⟩
  rw [toNat_tuningWord hf]
  exact abs_tuningNumber_mul_sub_le f

end Sys2Proof.Machine
end

section
/-! INIT, LOAD and RUN as whole runs of the machine: what DDSSER sends and what the receiver has after it (41_ddsser.md R94, R95,
R97 to R100, R108 to R111). -/

namespace Sys2Proof.Machine

open Sys2Proof

/-! ### RUN -/

/-- The receiver after the micro-step that is due, if one is. -/
def reaction (d : Ddsser) (r : Receiver) : Receiver :=
  match dueWrite d with
  | none => r
  | some e => observe d e r

/-- The receiver after `k` micro-steps. -/
def receivedAfter : Nat → Ddsser → Receiver → Receiver
  | 0, _, r => r
  | k + 1, d, r => receivedAfter k (microStep d) (reaction d r)

theorem microMove_eq_reaction (s : State) :
    microMove s = .next { s with ser := microStep s.ser, rx := reaction s.ser s.rx } := microMove_eq s

theorem step_run {s : State} {rest : List Event} (hs : s.inputs = .run :: rest) (busy : s.ser.seq ≠ .idle) :
    step s = .next { s with
      inputs := if (microStep s.ser).seq = .idle then rest else .run :: rest
      qdec := noStep s.qdec, ser := microStep s.ser, rx := reaction s.ser s.rx } := by
  have hbusy : (quietStep { s with inputs := rest }).busy = true := busy_eq_true_iff.mpr busy
  rw [step_of_inputs hs, eventMove, runMove, if_pos hbusy, microMove_eq_reaction, onNext_next]
  by_cases hidle : (microStep s.ser).seq = .idle <;> simp [State.busy, hidle]

/-- RUN of a command that takes `k + 1` micro-steps: it makes them and is spent, and nothing else changes but the quiet port. -/
theorem run_command {s : State} {rest : List Event} (k : Nat) (hs : s.inputs = .run :: rest)
    (busy : ∀ j ≤ k, (microSteps j s.ser).seq ≠ .idle) (idle : (microSteps (k + 1) s.ser).seq = .idle) :
    core.run (k + 1) s = .next { s with
      inputs := rest, qdec := noStep s.qdec
      ser := microSteps (k + 1) s.ser, rx := receivedAfter (k + 1) s.ser s.rx } := by
  induction k generalizing s with
  | zero =>
    have hstep := step_run hs (busy 0 le_rfl)
    rw [if_pos (show (microStep s.ser).seq = .idle from idle)] at hstep
    exact run_succ_of_step hstep 0
  | succ k ih =>
    have hstep := step_run hs (busy 0 (Nat.zero_le _))
    have hbusy : (microStep s.ser).seq ≠ .idle := busy 1 (Nat.succ_le_succ (Nat.zero_le k))
    rw [if_neg hbusy] at hstep
    exact (run_succ_of_step hstep _).trans (ih rfl (fun j hj => busy (j + 1) (Nat.succ_le_succ hj)) idle)

theorem microSteps_add (j k : Nat) (d : Ddsser) : microSteps (j + k) d = microSteps k (microSteps j d) := by
  induction k with
  | zero => rfl
  | succ k ih => rw [← Nat.add_assoc, microSteps_succ, microSteps_succ, ih]

theorem receivedAfter_add (j k : Nat) (d : Ddsser) (r : Receiver) :
    receivedAfter (j + k) d r = receivedAfter k (microSteps j d) (receivedAfter j d r) := by
  induction j generalizing d r with
  | zero => rw [Nat.zero_add]; rfl
  | succ j ih => rw [Nat.succ_add]; exact ih (microStep d) (reaction d r)

/-! ### INIT -/

theorem step_init {s : State} {w : BitVec 34} {rest : List Event} (hs : s.inputs = .sc w :: rest)
    (hw : commandCode w = 1) (idle : s.ser.seq = .idle) (live : s.inReset = false) :
    step s = .next { s with inputs := rest, qdec := noStep s.qdec, ser := beginInit s.ser } := by
  have hdecode : decodeSC w = .ok (.init (BitVec.ofNat 32 w.toNat)) := by
    rw [decodeSC_eq, hw]
    rfl
  have hlive : (quietStep { s with inputs := rest }).inReset = false := live
  rw [step_of_inputs hs, eventMove, commandMove_of_ok hdecode, presentMove_live hlive]
  exact accept_of_idle idle

theorem microSteps_init (d : Ddsser) :
    microSteps 4 (beginInit d) = { d with
      reset := false, clk := false, seq := .idle, trace := d.trace ++ initTrace } := by
  simp [microSteps, microStep, dueWrite, initWrite, seqNext, driveLine, setLine, beginInit, advance, initTrace]

theorem receivedAfter_init (d : Ddsser) (r : Receiver) :
    receivedAfter 4 (beginInit d) r = if d.clk then r else clockIn d.data r := rfl

theorem busy_init (d : Ddsser) {j : Nat} (hj : j ≤ 3) : (microSteps j (beginInit d)).seq ≠ .idle := by
  interval_cases j <;> exact Seq.noConfusion

/-- Settles O30: INIT is accepted and its four micro-steps run. -/
theorem initSendsItsFourWrites : Obligations.InitSendsItsFourWrites := by
  intro s w rest hs hw idle live
  have hrun := (run_succ_of_step (step_init hs hw idle live) 4).trans
    (run_command 3 rfl (fun j => busy_init s.ser) (by rw [microSteps_init]))
  refine ⟨_, hrun, rfl, ?_, receivedAfter_init s.ser s.rx, rfl, rfl, rfl, rfl, live⟩
  rw [microSteps_init, initTrace, ← idle]

/-! ### One group of a frame -/

theorem loadWrite_group (F : Frame) {k : Nat} (hk : k < 40) :
    loadWrite F (3 * k) = ⟨.data, F.getLsbD k⟩ ∧ loadWrite F (3 * k + 1) = ⟨.clk, true⟩ ∧
      loadWrite F (3 * k + 2) = ⟨.clk, false⟩ := by
  simpa using map_loadWrite_group F hk

section
variable {d : Ddsser} {k : Nat} (hk : k < 40) (h : d.seq = .load ⟨3 * k, by omega⟩)
include h

/-- Three micro-steps write a bit to `DATA` and pulse `CLK`. -/
theorem microSteps_group :
    microSteps 3 d = { d with
      data := d.shreg.getLsbD k, clk := false, seq := .load ⟨3 * k + 3, by omega⟩
      trace := d.trace ++ [⟨.data, d.shreg.getLsbD k⟩, ⟨.clk, true⟩, ⟨.clk, false⟩] } := by
  obtain ⟨hdata, hhigh, hlow⟩ := loadWrite_group d.shreg hk
  have h1 : 3 * k + 1 < 122 := by omega
  have h2 : 3 * k + 1 + 1 < 122 := by omega
  have h3 : 3 * k + 1 + 1 + 1 < 122 := by omega
  simp [microSteps, microStep, dueWrite, h, hdata, hhigh, hlow, driveLine, setLine, advance, seqNext, h1, h2, h3]

/-- The receiver takes the bit of a group at the rise of `CLK`, if `CLK` was low. -/
theorem receivedAfter_group (r : Receiver) :
    receivedAfter 3 d r = if d.clk then r else clockIn (d.shreg.getLsbD k) r := by
  obtain ⟨hdata, hhigh, hlow⟩ := loadWrite_group d.shreg hk
  have h1 : 3 * k + 1 < 122 := by omega
  have h2 : 3 * k + 1 + 1 < 122 := by omega
  simp [receivedAfter, reaction, microStep, dueWrite, h, hdata, hhigh, hlow, driveLine, setLine, advance, seqNext, h1, h2,
    observe]

end

/-! ### The forty groups and the commit pulse -/

/-- The receiver after the first `n` bits of a frame were clocked in. -/
def clockInBits (F : Frame) : Nat → Receiver → Receiver
  | 0, r => r
  | n + 1, r => clockIn (F.getLsbD n) (clockInBits F n r)

section
variable {d : Ddsser} (h : d.seq = .load 0)
include h

/-- The last of `n + 1` groups alone says what `DATA` and `CLK` are, whatever they were before. -/
theorem data_clk_of_groups {n : Nat} (hn : n < 40) :
    (microSteps (3 * n + 3) d).data = d.shreg.getLsbD n ∧ (microSteps (3 * n + 3) d).clk = false := by
  obtain ⟨hseq, hshreg, -⟩ := microSteps_load h (3 * n) (by omega)
  rw [microSteps_add, microSteps_group hn hseq, hshreg]
  exact ⟨rfl, rfl⟩

theorem clk_low_of_groups (low : d.clk = false) {n : Nat} (hn : n ≤ 40) : (microSteps (3 * n) d).clk = false := by
  cases n with
  | zero => exact low
  | succ n => exact (data_clk_of_groups h hn).2

/-- No group touches `FQ_UD` or `RESET`. -/
theorem fqUd_reset_of_groups {n : Nat} (hn : n ≤ 40) :
    (microSteps (3 * n) d).fqUd = d.fqUd ∧ (microSteps (3 * n) d).reset = d.reset := by
  induction n with
  | zero => exact ⟨rfl, rfl⟩
  | succ n ih =>
    obtain ⟨hseq, -, -⟩ := microSteps_load h (3 * n) (by omega)
    rw [Nat.mul_succ, microSteps_add, microSteps_group hn hseq]
    exact ih (Nat.le_of_succ_le hn)

theorem receivedAfter_groups (low : d.clk = false) {n : Nat} (hn : n ≤ 40) (r : Receiver) :
    receivedAfter (3 * n) d r = clockInBits d.shreg n r := by
  induction n with
  | zero => rfl
  | succ n ih =>
    have hle := Nat.le_of_succ_le hn
    obtain ⟨hseq, hshreg, -⟩ := microSteps_load h (3 * n) (by omega)
    rw [Nat.mul_succ, receivedAfter_add, receivedAfter_group hn hseq, clk_low_of_groups h low hle, hshreg, ih hle]
    rfl

end

theorem microSteps_commit {d : Ddsser} (h : d.seq = .load 120) :
    microSteps 2 d = { d with fqUd := false, seq := .idle, trace := d.trace ++ [⟨.fqUd, true⟩, ⟨.fqUd, false⟩] } := by
  simp [microSteps, microStep, dueWrite, h, loadWrite, driveLine, setLine, advance, seqNext]

theorem receivedAfter_commit {d : Ddsser} (h : d.seq = .load 120) (r : Receiver) :
    receivedAfter 2 d r = if d.fqUd then r else commit r := by
  simp [receivedAfter, reaction, microStep, dueWrite, h, loadWrite, driveLine, setLine, advance, seqNext, observe]

/-! ### A whole frame -/

/-- A whole frame leaves `DATA` at its last bit, `CLK` and `FQ_UD` low, and `RESET` as it was. -/
theorem microSteps_frame {d : Ddsser} (h : d.seq = .load 0) :
    microSteps 122 d = { d with
      data := d.shreg.getLsbD 39, clk := false, fqUd := false, seq := .idle
      trace := d.trace ++ frameTrace d.shreg } := by
  obtain ⟨hseq, hshreg, -⟩ := microSteps_load h 120 (by decide)
  obtain ⟨hdata, hclk⟩ := data_clk_of_groups h (n := 39) (by decide)
  obtain ⟨-, hreset⟩ := fqUd_reset_of_groups h (n := 40) le_rfl
  have htrace := trace_microSteps_load h
  rw [microSteps_add 120 2, microSteps_commit hseq] at htrace ⊢
  rw [Ddsser.mk.injEq]
  exact ⟨hdata, hclk, rfl, hreset, rfl, hshreg, htrace⟩

theorem receivedAfter_frame {d : Ddsser} (h : d.seq = .load 0) (hclk : d.clk = false) (hfqUd : d.fqUd = false)
    (r : Receiver) : receivedAfter 122 d r = commit (clockInBits d.shreg 40 r) := by
  obtain ⟨hseq, -, -⟩ := microSteps_load h 120 (by decide)
  obtain ⟨hlow, -⟩ := fqUd_reset_of_groups h (n := 40) le_rfl
  have hbits := receivedAfter_groups h hclk (n := 40) le_rfl r
  rw [receivedAfter_add 120 2, receivedAfter_commit hseq, hlow, hfqUd, hbits]
  rfl

/-! ### What the receiver has of a frame -/

theorem le_clockInBits_cnt (F : Frame) {n : Nat} (hn : n ≤ 40) (r : Receiver) : n ≤ (clockInBits F n r).cnt := by
  induction n with
  | zero => exact Nat.zero_le _
  | succ n ih => exact le_min (Nat.succ_le_succ (ih (Nat.le_of_succ_le hn))) hn

/-- After `n` bits the receiver's top `n` bits are the frame's first `n`, in order. -/
theorem clockInBits_stage (F : Frame) {n : Nat} (hn : n ≤ 40) (r : Receiver) {k : Nat} (hk : k < n) :
    (clockInBits F n r).stage.getLsbD (40 - n + k) = F.getLsbD k := by
  induction n with
  | zero => exact absurd hk (Nat.not_lt_zero k)
  | succ n ih =>
    rw [clockInBits, clockIn_stage, shiftIn_getLsbD]
    by_cases hlast : k = n
    · rw [if_pos (by omega), hlast]
    · have hbelow : 40 - (n + 1) + k < 39 := by omega
      have hshift : 40 - (n + 1) + k + 1 = 40 - n + k := by omega
      rw [if_neg hbelow.ne, decide_eq_true hbelow, Bool.true_and, hshift, ih (by omega) (by omega)]

/-- A whole frame clocked in is staged and counted, whatever was staged before, and then committed. -/
theorem commit_clockInBits (F : Frame) (r : Receiver) :
    commit (clockInBits F 40 r) = { stage := F, cnt := 40, committed := some F } := by
  have hstage : (clockInBits F 40 r).stage = F := BitVec.eq_of_getLsbD_eq fun k hk => by
    simpa using clockInBits_stage F le_rfl r hk
  have hcnt : (clockInBits F 40 r).cnt = 40 := le_antisymm (Nat.min_le_right ..) (le_clockInBits_cnt F le_rfl r)
  simp [commit, hstage, hcnt]

/-! ### LOAD and RUN -/

theorem step_load_eq {s : State} {f : Hertz} {rest : List Event}
    (hs : s.inputs = .sc (BitVec.ofNat 34 (2 * 2 ^ 32 + f.toNat)) :: rest) (live : s.inReset = false) :
    step s = acceptLoad f.toNat (quietStep { s with inputs := rest }) := by
  have hlive : (quietStep { s with inputs := rest }).inReset = false := live
  rw [step_of_inputs hs, eventMove, commandMove_of_ok (decodeSC_load f), presentMove_live hlive]
  rfl

theorem busy_frame {d : Ddsser} (h : d.seq = .load 0) {j : Nat} (hj : j ≤ 121) : (microSteps j d).seq ≠ .idle := by
  rw [(microSteps_load h j (Nat.lt_succ_of_le hj)).1]
  exact Seq.noConfusion

theorem microSteps_beginFrame (w : TuningWord) (d : Ddsser) :
    microSteps 122 (beginFrame w d) = { d with
      data := false, clk := false, fqUd := false, seq := .idle, shreg := frameOf w
      trace := d.trace ++ frameTrace (frameOf w) } := by
  have hlast : (frameOf w).getLsbD 39 = false := frameOf_getLsbD w 39
  rw [microSteps_frame (beginFrame_seq w d), beginFrame_shreg, hlast]
  rfl

/-- What LOAD and RUN leave of the whole machine: every part of DDSSER but `RESET` is the frame's. -/
theorem run_load_eq {s : State} {f : Hertz} {rest : List Event}
    (hs : s.inputs = .sc (BitVec.ofNat 34 (2 * 2 ^ 32 + f.toNat)) :: .run :: rest) (hf : f.toNat ≤ 124999999)
    (idle : s.ser.seq = .idle) (live : s.inReset = false) :
    core.run 123 s = .next { s with
      inputs := rest, qdec := noStep s.qdec
      ser := { s.ser with
        data := false, clk := false, fqUd := false, shreg := frameOf (tuningWord f.toNat)
        trace := s.ser.trace ++ frameTrace (frameOf (tuningWord f.toNat)) }
      rx := receivedAfter 122 (beginFrame (tuningWord f.toNat) s.ser) s.rx } := by
  have hsent := microSteps_beginFrame (tuningWord f.toNat) s.ser
  rw [← idle] at hsent
  have hstep := (step_load_eq hs live).trans (acceptLoad_eq_next_iff.mpr ⟨idle, hf, rfl⟩)
  rw [run_succ_of_step hstep, ← hsent]
  exact run_command 121 rfl (fun j => busy_frame (beginFrame_seq ..)) (by rw [quietStep_ser, microSteps_beginFrame])

/-- Settles O32: the receiver has clocked in the frame's bits and committed them. -/
theorem aLoadIsReceivedAsTheFrameOfItsWord : Obligations.ALoadIsReceivedAsTheFrameOfItsWord := by
  intro s f rest hs hf idle live hclk hfqUd F
  have hrx : receivedAfter 122 (beginFrame (tuningWord f.toNat) s.ser) s.rx =
      { stage := F, cnt := 40, committed := some F } :=
    (receivedAfter_frame (beginFrame_seq ..) hclk hfqUd s.rx).trans (commit_clockInBits F s.rx)
  rw [run_load_eq hs hf idle live, hrx]
  rfl

/-- Entry `m` of a frame's trace is the write of micro-step `m`. -/
theorem frameTrace_getElem? (F : Frame) {m : Nat} (hm : m < 122) : (frameTrace F)[m]? = some (loadWrite F m) := by
  rw [frameTrace_eq_map_loadWrite, List.getElem?_map, List.getElem?_range hm]
  rfl

theorem length_frameTrace (F : Frame) : (frameTrace F).length = 122 := by
  rw [frameTrace_eq_map_loadWrite, List.length_map, List.length_range]

/-- The writes of a tuning word's forty groups, with the bits of its tuning number. -/
theorem loadWrite_tuningWord {f m : Nat} (hf : f ≤ 124999999) (hm : m < 120) :
    loadWrite (frameOf (tuningWord f)) m =
      if m % 3 = 0 then ⟨.data, (tuningNumber f).testBit (m / 3)⟩
      else if m % 3 = 1 then ⟨.clk, true⟩ else ⟨.clk, false⟩ := by
  rw [frameOf_tuningWord hf, loadWrite, if_pos hm]
  rcases show m % 3 = 0 ∨ m % 3 = 1 ∨ m % 3 = 2 by omega with h3 | h3 | h3 <;> rw [h3]
  · have hbit : m / 3 < 40 := by omega
    have hlevel : (BitVec.ofNat 40 (tuningNumber f)).getLsbD (m / 3) = (tuningNumber f).testBit (m / 3) := by
      rw [BitVec.getLsbD_ofNat, decide_eq_true hbit, Bool.true_and]
    exact congrArg (PinEntry.mk .data) hlevel
  · rfl
  · rfl

/-- Settles O31: what is sent is the trace of the frame, micro-step by micro-step. -/
theorem aLoadSendsItsFrameAndCommits : Obligations.ALoadSendsItsFrameAndCommits := by
  intro s f rest hs idle live
  refine ⟨fun hf => (step_load_eq hs live).trans (acceptLoad_of_outOfRange idle hf), ?_⟩
  intro hf W
  refine ⟨_, _, run_load_eq hs hf idle live, rfl, rfl, length_frameTrace _, fun m hm => ?_,
    frameTrace_getElem? _ (by decide), frameTrace_getElem? _ (by decide), idle, frameOf_tuningWord hf, rfl, rfl, rfl, rfl⟩
  rw [frameTrace_getElem? _ (by omega), loadWrite_tuningWord hf hm]
  rfl

end Sys2Proof.Machine
end

section
/-! The tuning state machine and the control loop: what each call and each turn of the loop leaves, and that the display frequency
stays within its band (42_tuning_context.md R120 to R136). -/

namespace Sys2Proof.Machine

open Sys2Proof

/-! ### One step of the display frequency -/

theorem applyStep_eq (e : StepEvent) (u : TuningState) :
    applyStep e u = { u with display :=
      if (u.display : Int) + stepValue e < u.min then u.max
      else if (u.max : Int) < u.display + stepValue e then u.min
      else ((u.display : Int) + stepValue e).toNat } := by
  simp [applyStep, Config.stepSizeKHz]

section
variable {e : StepEvent} {u : TuningState}

theorem applyStep_of_below (below : (u.display : Int) + stepValue e < u.min) :
    applyStep e u = { u with display := u.max } := by
  rw [applyStep_eq, if_pos below]

theorem applyStep_of_above (notBelow : (u.min : Int) ≤ u.display + stepValue e)
    (above : (u.max : Int) < u.display + stepValue e) : applyStep e u = { u with display := u.min } := by
  rw [applyStep_eq, if_neg notBelow.not_gt, if_pos above]

theorem applyStep_of_within (notBelow : (u.min : Int) ≤ u.display + stepValue e)
    (notAbove : (u.display : Int) + stepValue e ≤ u.max) :
    applyStep e u = { u with display := ((u.display : Int) + stepValue e).toNat } := by
  rw [applyStep_eq, if_neg notBelow.not_gt, if_neg notAbove.not_gt]

theorem applyStep_display_of_within (notBelow : (u.min : Int) ≤ u.display + stepValue e)
    (notAbove : (u.display : Int) + stepValue e ≤ u.max) :
    ((applyStep e u).display : Int) = u.display + stepValue e := by
  rw [applyStep_of_within notBelow notAbove]
  exact Int.toNat_of_nonneg ((Int.natCast_nonneg u.min).trans notBelow)

end

/-! ### The tuning invariant -/

/-- Taking up a band puts the display frequency at the band's default, within its bounds. -/
theorem BandTable.ok.enterBand {p : Params} (hbands : BandTable.ok p.bands) (b : Band) (m : Mode) :
    TuningInv p (enterBand p.bands b m) := by
  obtain ⟨hmin, hmax, -⟩ := hbands b
  exact ⟨hbands, rfl, rfl, hmin, hmax⟩

/-- A step ends at an edge of the band, or one kilohertz on between them. -/
theorem TuningInv.applyStep {p : Params} {u : TuningState} (h : TuningInv p u) (e : StepEvent) :
    TuningInv p (applyStep e u) := by
  obtain ⟨hbands, hmin, hmax, hlow, hhigh⟩ := h
  have hedges : u.min ≤ u.max := hlow.trans hhigh
  refine ⟨hbands, hmin, hmax, ?_⟩
  rcases lt_or_ge ((u.display : Int) + stepValue e) u.min with below | notBelow
  · rw [applyStep_of_below below]
    exact ⟨hedges, le_rfl⟩
  rcases lt_or_ge (u.max : Int) (u.display + stepValue e) with above | notAbove
  · rw [applyStep_of_above notBelow above]
    exact ⟨le_rfl, hedges⟩
  · have hdisplay := applyStep_display_of_within notBelow notAbove
    exact ⟨Int.ofNat_le.mp (hdisplay ▸ notBelow), Int.ofNat_le.mp (hdisplay ▸ notAbove)⟩

theorem TuningInv.mutation {p : Params} {u : TuningState} (h : TuningInv p u) (c : Call) :
    TuningInv p (mutation p.bands c u) := by
  cases c with
  | applyStep e => exact h.applyStep e
  | changeBand | changeMode => exact h.1.enterBand _ _

/-- Settles O49: a step leaves the tuning state as it is or makes one mutation. -/
theorem everyStepKeepsTheDisplayInItsBand : Obligations.EveryStepKeepsTheDisplayInItsBand := by
  intro s t h hstep
  have effect := step_effect hstep
  rw [effect.params]
  cases effect.tuning with
  | same hu => rw [hu]; exact h
  | mutated c hu => rw [hu]; exact h.mutation c

/-! ### The calls -/

/-- The main loop's call, made while no command is in progress, mutates the tuning state. -/
theorem step_call {s : State} {c : Call} {rest : List Event} (hs : s.inputs = .call c :: rest)
    (idle : s.ser.seq = .idle) : step s = .next (mutate c (quietStep { s with inputs := rest })) := by
  have hbusy : (quietStep { s with inputs := rest }).busy = false := busy_eq_false_iff.mpr idle
  rw [step_of_inputs hs, eventMove, callMove, hbusy]
  rfl

/-- Calls in a row make their mutations one after the other. -/
theorem run_calls (cs : List Call) {s : State} (hs : s.inputs = cs.map .call) (idle : s.ser.seq = .idle) :
    ∃ t, core.run cs.length s = .next t ∧
      t.env.tuning = cs.foldl (fun u c => mutation s.params.bands c u) s.env.tuning := by
  induction cs generalizing s with
  | nil => exact ⟨s, rfl, rfl⟩
  | cons c cs ih =>
    obtain ⟨t, hrun, htuning⟩ := ih (s := mutate c (quietStep { s with inputs := cs.map .call })) rfl idle
    exact ⟨t, (run_succ_of_step (step_call hs idle) _).trans hrun, htuning⟩

/-- Settles O42, by where the step ends. -/
theorem applyStepMovesOneKilohertzAndWraps : Obligations.ApplyStepMovesOneKilohertzAndWraps := by
  intro s e rest hs idle u d
  have hd : d = u.display + stepValue e := by cases e <;> rfl
  refine ⟨_, step_call hs idle, ?_, ?_, ?_, rfl, rfl, rfl, rfl⟩ <;> rw [hd]
  · exact fun below => congrArg TuningState.display (applyStep_of_below below)
  · exact fun notBelow above => congrArg TuningState.display (applyStep_of_above notBelow above)
  · exact applyStep_display_of_within

/-- Six successors of a band in the cycle come back to it (42_tuning_context.md R122). -/
theorem nextBand_six (b : Band) :
    nextBand (some (nextBand (some (nextBand (some (nextBand (some (nextBand (some (nextBand (some b))))))))))) = b := by
  cases b <;> rfl

theorem changeBand_six (t : BandTable) (u : TuningState) :
    (List.replicate 6 Call.changeBand).foldl (fun u c => mutation t c u) u = enterBand t u.band u.mode :=
  congrArg (enterBand t · u.mode) (nextBand_six u.band)

/-- Settles O43, by one round of the cycle. -/
theorem sixBandChangesReturn : Obligations.SixBandChangesReturn := by
  refine ⟨⟨rfl, rfl, rfl, rfl, rfl, rfl, rfl⟩, fun s idle => ⟨?_, ?_⟩⟩
  · exact run_calls [.changeBand] rfl idle
  · obtain ⟨t, hrun, htuning⟩ := run_calls (List.replicate 6 .changeBand)
      (s := { s with inputs := List.replicate 6 (.call .changeBand) }) rfl idle
    exact ⟨t, hrun, htuning.trans (changeBand_six ..)⟩

theorem otherMode_ne (m : Mode) : otherMode m ≠ m := by
  cases m <;> exact Mode.noConfusion

theorem otherMode_otherMode (m : Mode) : otherMode (otherMode m) = m := by
  cases m <;> rfl

theorem changeMode_changeMode (t : BandTable) (u : TuningState) :
    changeMode t (changeMode t u) = enterBand t u.band u.mode :=
  congrArg (enterBand t u.band) (otherMode_otherMode u.mode)

/-- Settles O44: the mode is exchanged once and twice, and within the invariant the bounds were the band's already. -/
theorem changeModeReentersTheBand : Obligations.ChangeModeReentersTheBand := by
  intro s idle r
  constructor
  · obtain ⟨t, hrun, htuning⟩ := run_calls [.changeMode] (s := { s with inputs := [.call .changeMode] }) rfl idle
    refine ⟨t, hrun, ?_⟩
    rw [htuning]
    exact ⟨otherMode_ne _, rfl, rfl, rfl, rfl⟩
  · obtain ⟨t, hrun, htuning⟩ := run_calls [.changeMode, .changeMode]
      (s := { s with inputs := [.call .changeMode, .call .changeMode] }) rfl idle
    have hback : t.env.tuning = enterBand s.params.bands s.env.tuning.band s.env.tuning.mode :=
      htuning.trans (changeMode_changeMode ..)
    refine ⟨t, hrun, hback, fun ⟨_, hmin, hmax, _⟩ => ?_⟩
    rw [hback]
    exact ⟨hmin.symm, hmax.symm⟩

/-! ### The translator and the recommit -/

theorem translate_of_primary {u : TuningState} (h : u.mode = .primary) : translate u = u.display := by
  rw [translate, h]

theorem translate_of_offsetExciter {u : TuningState} (h : u.mode = .offsetExciter) :
    translate u = u.display + 9000 := by
  rw [translate, h]
  rfl

/-- Settles O45, mode by mode. -/
theorem theTranslatorAddsTheOffsetInExciterMode : Obligations.TheTranslatorAddsTheOffsetInExciterMode :=
  fun _ => ⟨translate_of_primary, translate_of_offsetExciter⟩

theorem TuningInv.display_le {p : Params} {u : TuningState} (h : TuningInv p u) : u.display ≤ 29700 := by
  obtain ⟨hbands, -, hmax, -, hhigh⟩ := h
  obtain ⟨-, -, hbound⟩ := hbands u.band
  exact (hhigh.trans_eq hmax).trans hbound

/-- The translated frequency of a tuning state within its band is at most 38.7 MHz (42_tuning_context.md R136). -/
theorem TuningInv.loadFrequency_le {p : Params} {u : TuningState} (h : TuningInv p u) :
    loadFrequency u ≤ 38700000 := by
  have hdisplay := h.display_le
  have htranslate : translate u ≤ 38700 := by
    cases hmode : u.mode with
    | primary => rw [translate_of_primary hmode]; omega
    | offsetExciter => rw [translate_of_offsetExciter hmode]; omega
  exact Nat.mul_le_mul_right 1000 htranslate

/-- The recommit presents the LOAD of the translated frequency, which has no effect during reset. -/
theorem recommitMove_of_legal {s : State} (idle : s.ser.seq = .idle)
    (legal : loadFrequency s.env.tuning ≤ Config.freqMaxHz) :
    recommitMove s = .next { s with
      ser := if s.inReset then s.ser else beginFrame (tuningWord (loadFrequency s.env.tuning)) s.ser
      env := { s.env with phase := .poll, shown := some (displayItems s.env.tuning) } } := by
  refine onNext_eq_next_iff.mpr ⟨{ s with
    ser := if s.inReset then s.ser else beginFrame (tuningWord (loadFrequency s.env.tuning)) s.ser }, ?_, rfl⟩
  rw [decide_eq_true legal]
  by_cases hreset : s.inReset = true
  · rw [heldOff_in_reset hreset, if_pos hreset]
  · rw [heldOff_live (Bool.eq_false_of_not_eq_true hreset), if_neg hreset]
    exact acceptLoad_eq_next_iff.mpr ⟨idle, legal, rfl⟩

theorem step_loop_recommit {s : State} {l : Look} {rest : List Event} (hs : s.inputs = .loop l :: rest)
    (idle : s.ser.seq = .idle) (phase : s.env.phase = .recommit) :
    step s = recommitMove (quietStep { s with inputs := rest }) := by
  have hbusy : (quietStep { s with inputs := rest }).busy = false := busy_eq_false_iff.mpr idle
  rw [step_of_inputs hs, eventMove, loopMove, hbusy, quietStep_env, phase]
  rfl

/-- Settles O46: the frequency is legal, so the LOAD is accepted. -/
theorem theLoopRecommitsTheTranslatedFrequency : Obligations.TheLoopRecommitsTheTranslatedFrequency := by
  intro s l rest hs idle phase hinv kHz
  have hkHz : kHz * 1000 = loadFrequency s.env.tuning := rfl
  have hbound := hinv.loadFrequency_le
  have hlegal : loadFrequency s.env.tuning ≤ 124999999 := hbound.trans (by decide)
  rw [hkHz]
  refine ⟨hbound, _, (step_loop_recommit hs idle phase).trans (recommitMove_of_legal idle hlegal), rfl, rfl,
    fun hreset => if_pos hreset, fun live => (if_neg (by simp [live])).trans ?_⟩
  have hword := frameOf_tuningWord hlegal
  rw [tuningNumber_eq] at hword
  rw [← hword]
  rfl

/-! ### The polling loop -/

theorem step_loop_poll {s : State} {l : Look} {rest : List Event} (hs : s.inputs = .loop l :: rest)
    (idle : s.ser.seq = .idle) (phase : s.env.phase = .poll) :
    step s = .next (pollMove l (quietStep { s with inputs := rest })) := by
  have hbusy : (quietStep { s with inputs := rest }).busy = false := busy_eq_false_iff.mpr idle
  rw [step_of_inputs hs, eventMove, loopMove, hbusy, quietStep_env, phase]
  rfl

theorem mutate_phase_of_poll {c : Call} {s : State} (phase : s.env.phase = .poll) :
    (mutate c s).env.phase = .recommit := if_neg (by simp [phase])

theorem stepOfSign_of_pos {d : Int} (h : 0 < d) : stepOfSign d = .inc := if_pos h.le

theorem stepOfSign_of_neg {d : Int} (h : d < 0) : stepOfSign d = .dec := if_neg h.not_ge

/-- The environment after one of `d` owed steps was applied: the rest is owed, and a recommit. -/
def payOne (d : Int) (v : Environment) : Environment :=
  { v with tuning := applyStep (stepOfSign d) v.tuning, phase := .recommit, owed := d - stepValue (stepOfSign d) }

theorem payOne_of_pos {d : Int} (h : 0 < d) (v : Environment) :
    payOne d v = { v with tuning := applyStep .inc v.tuning, phase := .recommit, owed := d - 1 } := by
  rw [payOne, stepOfSign_of_pos h]
  rfl

theorem payOne_of_neg {d : Int} (h : d < 0) (v : Environment) :
    payOne d v = { v with tuning := applyStep .dec v.tuning, phase := .recommit, owed := d + 1 } := by
  rw [payOne, stepOfSign_of_neg h]
  rfl

theorem payStep_env {s : State} (phase : s.env.phase = .poll) : (payStep s).env = payOne s.env.owed s.env := by
  simp [payStep, mutate, mutation, payOne, phase]

/-- While the loop owes a step it pays one, whatever it looks at. -/
theorem pollMove_env_of_owed (l : Look) {s : State} (owes : s.env.owed ≠ 0) (phase : s.env.phase = .poll) :
    (pollMove l s).env = payOne s.env.owed s.env := by
  have hpay : pollMove l s = payStep s := if_pos owes
  rw [hpay]
  exact payStep_env phase

section
variable {s : State} (paid : s.env.owed = 0)
include paid

theorem pollMove_bandButton :
    pollMove .bandButton s =
      if s.env.bandButton then mutate .changeBand (setButton .band false s) else s := if_neg (not_not.mpr paid)

theorem pollMove_modeButton :
    pollMove .modeButton s =
      if s.env.modeButton then mutate .changeMode (setButton .mode false s) else s := if_neg (not_not.mpr paid)

theorem pollMove_position : pollMove .position s = readPosition s := if_neg (not_not.mpr paid)

/-- Reading a `pos` with no difference, or reading where there is no `pos`, changes nothing. -/
theorem pollMove_position_env_of_same
    (same : s.params.hasPos = false ∨ posDifference s.qdec.pos s.env.lastPos = 0) :
    (pollMove .position s).env = s.env := by
  have hstill : ¬(s.params.hasPos = true ∧ posDifference s.qdec.pos s.env.lastPos ≠ 0) := by
    rcases same with hnone | hzero
    · simp [hnone]
    · simp [hzero]
  rw [pollMove_position paid, readPosition, if_neg hstill]

/-- Reading another `pos` remembers it and pays the first step of the difference. -/
theorem pollMove_position_env_of_moved (hasPos : s.params.hasPos = true)
    (moved : posDifference s.qdec.pos s.env.lastPos ≠ 0) (phase : s.env.phase = .poll) :
    (pollMove .position s).env =
      payOne (posDifference s.qdec.pos s.env.lastPos) { s.env with lastPos := s.qdec.pos } := by
  rw [pollMove_position paid, readPosition, if_pos ⟨hasPos, moved⟩]
  exact payStep_env phase

end

/-- Settles O47: a turn pays one of the steps that are owed, or of the difference that it reads. -/
theorem theLoopAppliesTheDifferenceOfPos : Obligations.TheLoopAppliesTheDifferenceOfPos := by
  intro s l rest hs idle phase d
  have hread (paid : s.env.owed = 0) (hasPos : s.params.hasPos = true) (moved : d ≠ 0) :
      (pollMove .position (quietStep { s with inputs := rest })).env = payOne d { s.env with lastPos := s.qdec.pos } :=
    pollMove_position_env_of_moved paid hasPos moved phase
  have hpay (owes : s.env.owed ≠ 0) :
      (pollMove l (quietStep { s with inputs := rest })).env = payOne s.env.owed s.env :=
    pollMove_env_of_owed l owes phase
  refine ⟨_, step_loop_poll hs idle phase, fun paid look => ?_, fun owes => ?_, fun up => ?_, fun down => ?_,
    pollMove_ser l _, (congrArg Qdec.lasting (pollMove_qdec l _)).trans rfl⟩
  · subst look
    refine ⟨fun same => ?_, fun hasPos moved => ?_, fun hasPos up => ?_, fun hasPos down => ?_⟩
    · exact pollMove_position_env_of_same paid same
    · rw [hread paid hasPos moved]
      exact ⟨rfl, rfl⟩
    · rw [hread paid hasPos up.ne', payOne_of_pos up]
      exact ⟨rfl, rfl⟩
    · rw [hread paid hasPos down.ne, payOne_of_neg down]
      exact ⟨rfl, rfl⟩
  · rw [hpay owes]
    exact ⟨rfl, rfl, rfl, rfl⟩
  · rw [hpay up.ne', payOne_of_pos up]
    exact ⟨rfl, rfl⟩
  · rw [hpay down.ne, payOne_of_neg down]
    exact ⟨rfl, rfl⟩

/-! ### The buttons -/

/-- A button's press or its end, and then the loop's look at it or at another input. -/
theorem run_button_look {s : State} {e : Event} {b : Button} {pressed : Bool} (l : Look)
    (he : ∀ u, eventMove e u = .next (setButton b pressed u)) (idle : s.ser.seq = .idle)
    (phase : s.env.phase = .poll) :
    core.run 2 { s with inputs := [e, .loop l] } =
      .next (pollMove l (setButton b pressed (quietStep { s with inputs := [] }))) := by
  have hbutton : step { s with inputs := [e, .loop l] } =
      .next (setButton b pressed (quietStep { s with inputs := [.loop l] })) := (step_of_inputs rfl).trans (he _)
  have hlook : step (setButton b pressed (quietStep { s with inputs := [.loop l] })) =
      .next (pollMove l (setButton b pressed (quietStep { s with inputs := [] }))) := by
    cases b <;> exact step_loop_poll rfl idle phase
  rw [run_succ_of_step hbutton, run_succ_of_step hlook]
  rfl

/-- Settles O48: the look finds the bit that the press or its end left. -/
theorem aPressMakesOneCall : Obligations.APressMakesOneCall := by
  intro s idle phase paid
  refine ⟨⟨_, run_button_look .bandButton (b := .band) (pressed := true) (fun _ => rfl) idle phase, ?_⟩,
    ⟨_, run_button_look .modeButton (b := .mode) (pressed := true) (fun _ => rfl) idle phase, ?_⟩,
    ⟨_, run_button_look .bandButton (b := .band) (pressed := false) (fun _ => rfl) idle phase, ?_⟩,
    ⟨_, run_button_look .modeButton (b := .mode) (pressed := false) (fun _ => rfl) idle phase, ?_⟩⟩
  · rw [pollMove_bandButton (by exact paid)]
    exact ⟨rfl, rfl, rfl, mutate_phase_of_poll phase⟩
  · rw [pollMove_modeButton (by exact paid)]
    exact ⟨rfl, rfl, rfl, mutate_phase_of_poll phase⟩
  · rw [pollMove_bandButton (by exact paid)]
    exact ⟨rfl, phase⟩
  · rw [pollMove_modeButton (by exact paid)]
    exact ⟨rfl, phase⟩

end Sys2Proof.Machine
end

section
/-! The block's reset: what applying it leaves, and that the block rests while it is applied (70_reset_and_hazards.md R170,
10_state.md R24). -/

namespace Sys2Proof.Machine

open Sys2Proof

/-! ### A block at rest in reset -/

theorem noStep_afterReset (width : Nat) : noStep (.afterReset width) = .afterReset width := rfl

/-- While reset is applied the lines may move, and nothing is captured. -/
theorem captureEdge_in_reset (pending old new : Bool) : captureEdge (!true) pending old new = pending :=
  Bool.or_false pending

/-- DDSSER at rest has no write due and accepts no command while reset is applied. -/
theorem SerializerMove.keeps_afterReset {s t : State} (h : SerializerMove s t) (applied : s.inReset = true)
    (rest : s.ser = .afterReset) : t.ser = .afterReset := by
  cases h with
  | same hs _ => rw [hs, rest]
  | micro e due _ _ => rw [rest] at due; cases due
  | init live _ _ _ => rw [applied] at live; cases live
  | load f live _ _ _ _ => rw [applied] at live; cases live
  | reset hs _ => exact hs

/-- QDEC at rest has nothing pending, and while reset is applied it neither decodes a word nor captures an edge. -/
theorem DecoderMove.keeps_afterReset {s t : State} {width : Nat} (h : DecoderMove s t) (applied : s.inReset = true)
    (rest : s.qdec = .afterReset width) : t.qdec = .afterReset width := by
  cases h with
  | same hq => rw [hq, rest, noStep_afterReset]
  | edge w live _ => rw [applied] at live; cases live
  | serviceA hp _ => rw [rest] at hp; cases hp
  | serviceB hp _ => rw [rest] at hp; cases hp
  | lines a b hq => rw [hq, applied, captureEdge_in_reset, captureEdge_in_reset, rest]; rfl
  | reset hq => rw [hq, rest]; rfl

/-- Settles O52: a step that leaves reset applied finds the block at rest and keeps it so, or applies reset itself. -/
theorem everyStepKeepsTheBlockAtRestInReset : Obligations.EveryStepKeepsTheBlockAtRestInReset := by
  intro s t h hstep applied
  have effect := step_effect hstep
  cases effect.reset with
  | same hi =>
    have before : s.inReset = true := hi ▸ applied
    obtain ⟨hqdec, hser⟩ := h before
    have hrest := effect.decoder.keeps_afterReset before hqdec
    exact ⟨by rw [hrest]; rfl, effect.serializer.keeps_afterReset before hser⟩
  | applied _ hq hs => exact ⟨by rw [hq]; rfl, hs⟩
  | ended hi => rw [hi] at applied; cases applied

/-! ### Reset applied and ended -/

/-- Settles O50, by the event's two moves. -/
theorem theBlocksResetGivesEveryElementItsValue : Obligations.TheBlocksResetGivesEveryElementItsValue := by
  intro s rest
  refine ⟨fun hs => ⟨_, step_of_inputs hs, ?_⟩, fun hs => ⟨_, step_of_inputs hs, ?_⟩⟩
  · simp [Qdec.afterReset, Ddsser.afterReset]
  · simp [Qdec.lasting]

end Sys2Proof.Machine
end

section
/-! The environment's contract is what a step needs to go on (70_reset_and_hazards.md R184), and with nothing supplied the
block's own moves come to an end (R180, R183). -/

namespace Sys2Proof.Machine

open Sys2Proof

/-! ### Answers that go on -/

/-- The answer is a next state. -/
def Answer.goesOn (o : Answer) : Prop := ∃ t, o = .next t

@[simp] theorem goesOn_next (s : State) : Answer.goesOn (.next s) := ⟨s, rfl⟩

@[simp] theorem not_goesOn_refused (r : Refusal) : ¬ Answer.goesOn (.refused r) := by
  rintro ⟨_, h⟩
  cases h

@[simp] theorem goesOn_onNext {o : Answer} {g : State → State} : Answer.goesOn (onNext o g) ↔ Answer.goesOn o := by
  cases o with
  | next s => simp
  | fault r => cases r
  | refused r => simp

@[simp] theorem goesOn_heldOff {legal : Bool} {s : State} {o : Answer} :
    Answer.goesOn (heldOff legal s o) ↔ (s.inReset = true ∧ legal = true) ∨ Answer.goesOn o := by
  unfold heldOff
  split
  next held => simp [held]
  next live => simp [live]

theorem goesOn_accept {start : Ddsser → Ddsser} {s : State} :
    Answer.goesOn (accept start s) ↔ s.ser.seq = .idle := by
  simp [Answer.goesOn, accept_eq_next_iff]

theorem goesOn_acceptLoad {f : Nat} {s : State} :
    Answer.goesOn (acceptLoad f s) ↔ s.ser.seq = .idle ∧ f ≤ Config.freqMaxHz := by
  simp [Answer.goesOn, acceptLoad_eq_next_iff]

/-! ### The contract, event by event -/

theorem goesOn_microMove (s : State) : Answer.goesOn (microMove s) := by
  rw [microMove_eq]
  exact goesOn_next _

/-- A word of INIT goes on when DDSSER is idle, and during reset. -/
theorem goesOn_presentMove_init {x : BitVec 32} {s : State} :
    Answer.goesOn (presentMove (.init x) s) ↔ s.inReset = true ∨ s.ser.seq = .idle := by
  have hexec : Answer.goesOn (exec (.init x) s) ↔ s.ser.seq = .idle := goesOn_accept
  simp [presentMove, Instr.wellFormed, hexec]

/-- A word of LOAD goes on within the range only, and then when DDSSER is idle, and during reset. -/
theorem goesOn_presentMove_load {f : Hertz} {s : State} :
    Answer.goesOn (presentMove (.load f) s) ↔
      (s.inReset = true ∨ s.ser.seq = .idle) ∧ f.toNat ≤ Config.freqMaxHz := by
  have hexec : Answer.goesOn (exec (.load f) s) ↔ s.ser.seq = .idle ∧ f.toNat ≤ Config.freqMaxHz := goesOn_acceptLoad
  simp [presentMove, Instr.wellFormed, Hertz.inRange, hexec, or_and_right]

/-- A command word goes on exactly under the contract, code by code. -/
theorem goesOn_commandMove {w : BitVec 34} {s : State} :
    Answer.goesOn (commandMove w s) ↔ keepsContract (.sc w) s := by
  have hoperand : (BitVec.ofNat 32 w.toNat).toNat = commandOperand w := BitVec.toNat_ofNat ..
  have hdecode := decodeSC_eq w
  rcases lt_or_ge (commandCode w) 3 with hcode | hcode
  · interval_cases hc : commandCode w
    · simp [commandMove_of_ok hdecode, keepsContract, hc, presentMove, exec, execNop]
    · rw [commandMove_of_ok hdecode, goesOn_presentMove_init]
      simp [keepsContract, hc, or_comm]
    · rw [commandMove_of_ok hdecode, goesOn_presentMove_load, hoperand]
      simp [keepsContract, hc, or_comm]
  · have hreserved : decodeSC w = .error .reservedCommand := by
      rw [hdecode, if_neg (by omega), if_neg (by omega), if_neg (by omega)]
    simp [commandMove_of_error hreserved, keepsContract, show commandCode w ≠ 0 by omega,
      show commandCode w ≠ 1 by omega, show commandCode w ≠ 2 by omega]

/-- The loop's turn goes on but at a recommit out of range. -/
theorem goesOn_loopMove {l : Look} {s : State} : Answer.goesOn (loopMove l s) ↔ keepsContract (.loop l) s := by
  unfold loopMove
  by_cases idle : s.ser.seq = .idle
  · rw [if_neg (by simp [State.busy, idle])]
    cases phase : s.env.phase with
    | boot => simp [keepsContract, phase, goesOn_presentMove_init, idle]
    | recommit =>
      simp [keepsContract, phase, recommitMove, goesOn_acceptLoad, idle]
    | poll => simp [keepsContract, phase]
  · rw [if_pos (busy_eq_true_iff.mpr idle)]
    simp [keepsContract, idle]

/-- An event's move goes on exactly when the event keeps the contract. -/
theorem goesOn_eventMove {e : Event} {s : State} : Answer.goesOn (eventMove e s) ↔ keepsContract e s := by
  cases e with
  | sc w => exact goesOn_commandMove
  | loop l => exact goesOn_loopMove
  | call c =>
    rw [eventMove, callMove]
    by_cases idle : s.ser.seq = .idle <;> simp [keepsContract, State.busy, idle]
  | qe | lines | serviceA | serviceB =>
    rw [eventMove_decoderSide rfl]
    exact iff_of_true (goesOn_next _) trivial
  | micro => exact iff_of_true (goesOn_microMove s) trivial
  | run =>
    rw [eventMove, runMove]
    split <;> simp [keepsContract, goesOn_microMove]
  | blockReset | press | release => exact iff_of_true (goesOn_next _) trivial

/-- What the contract asks of an event is the same before the event is taken from the supply and the port is quiet. -/
theorem keepsContract_quietStep (e : Event) (s : State) (rest : List Event) :
    keepsContract e (quietStep { s with inputs := rest }) ↔ keepsContract e s := Iff.rfl

/-! ### The block's own moves -/

/-- The micro-steps left of the command in progress. -/
def Seq.left : Seq → Nat
  | .idle => 0
  | .init m => 4 - m
  | .load m => 122 - m

/-- The moves that the block makes of its own: a service for each pending notification, and the micro-steps left. -/
def State.work (s : State) : Nat := s.qdec.pendA.toNat + s.qdec.pendB.toNat + s.ser.seq.left

theorem Seq.left_le (q : Seq) : q.left ≤ 122 := by
  cases q with
  | idle => exact Nat.zero_le _
  | init m => exact (Nat.sub_le 4 m).trans (by decide)
  | load m => exact Nat.sub_le 122 m

theorem State.work_le (s : State) : s.work ≤ 124 :=
  Nat.add_le_add (Nat.add_le_add (Bool.toNat_le _) (Bool.toNat_le _)) s.ser.seq.left_le

theorem Seq.left_eq_zero_iff {q : Seq} : q.left = 0 ↔ q = .idle := by
  cases q with
  | idle => exact iff_of_true rfl rfl
  | init m | load m => exact iff_of_false (Nat.sub_ne_zero_of_lt m.isLt) Seq.noConfusion

theorem State.work_eq_zero_iff {s : State} : s.work = 0 ↔ s.quiescent := by
  simp [State.work, State.quiescent, Seq.left_eq_zero_iff, and_comm]

theorem Seq.left_seqNext {q : Seq} (busy : q ≠ .idle) : (seqNext q).left + 1 = q.left := by
  cases q with
  | idle => exact absurd rfl busy
  | init m =>
    rw [seqNext]
    split <;> simp only [Seq.left] <;> omega
  | load m =>
    rw [seqNext]
    split <;> simp only [Seq.left] <;> omega

theorem microStep_seq (d : Ddsser) : (microStep d).seq = seqNext d.seq := by
  unfold microStep
  cases hdue : dueWrite d with
  | none => rw [dueWrite_eq_none_iff.mp hdue]; rfl
  | some e => simp

/-- The move goes on, takes nothing from the supply and leaves one piece of the block's work less. -/
def DoesWork (s : State) (o : Answer) : Prop := ∃ t, o = .next t ∧ t.inputs = s.inputs ∧ t.work + 1 = s.work

theorem serviceMoveA_doesWork {s : State} (hp : s.qdec.pendA = true) : DoesWork s (serviceMoveA s) := by
  refine ⟨_, serviceMoveA_eq s, rfl, ?_⟩
  simp only [State.work, updateQdec_qdec, updateQdec_ser, hp, if_true, edgeAOf_pending, Bool.toNat_true,
    Bool.toNat_false]
  omega

theorem serviceMoveB_doesWork {s : State} (hp : s.qdec.pendB = true) : DoesWork s (serviceMoveB s) := by
  refine ⟨_, serviceMoveB_eq s, rfl, ?_⟩
  simp only [State.work, updateQdec_qdec, updateQdec_ser, hp, if_true, edgeBOf_pending, Bool.toNat_true,
    Bool.toNat_false]
  omega

theorem microMove_doesWork {s : State} (busy : s.ser.seq ≠ .idle) : DoesWork s (microMove s) := by
  refine ⟨_, microMove_eq s, rfl, ?_⟩
  have hleft := Seq.left_seqNext busy
  simp only [State.work, microStep_seq]
  omega

/-- A block that is not quiescent serves a notification, or else makes its micro-step. -/
theorem ownMove_doesWork {s : State} (h : ¬ s.quiescent) : DoesWork s (ownMove s) := by
  unfold ownMove
  split
  next both =>
    dsimp only
    split
    · exact serviceMoveA_doesWork (s := { s with draws := s.draws + 1 }) both.1
    · exact serviceMoveB_doesWork (s := { s with draws := s.draws + 1 }) both.2
  next =>
    split
    next pendA => exact serviceMoveA_doesWork pendA
    next noA =>
      split
      next pendB => exact serviceMoveB_doesWork pendB
      next noB =>
        have busy : s.ser.seq ≠ .idle := fun idle =>
          h ⟨idle, Bool.eq_false_of_not_eq_true noA, Bool.eq_false_of_not_eq_true noB⟩
        rw [if_pos (busy_eq_true_iff.mpr busy)]
        exact microMove_doesWork busy

/-- The command port of a quiescent block reads NOP. -/
theorem ownMove_of_quiescent {s : State} (h : s.quiescent) : ownMove s = .next s := by
  obtain ⟨idle, hA, hB⟩ := h
  simp [ownMove, hA, hB, busy_eq_false_iff.mpr idle, exec, execNop]

theorem goesOn_ownMove (s : State) : Answer.goesOn (ownMove s) := by
  by_cases h : s.quiescent
  · exact ⟨s, ownMove_of_quiescent h⟩
  · obtain ⟨t, hmove, -⟩ := ownMove_doesWork h
    exact ⟨t, hmove⟩

theorem step_of_no_inputs {s : State} (hs : s.inputs = []) : step s = ownMove (quietStep s) := by
  simp only [step, hs]

/-- Settles O40: the event that is supplied decides, and the block's own moves always go on. -/
theorem aStepAnswersExactlyUnderTheContract : Obligations.AStepAnswersExactlyUnderTheContract := by
  intro s
  cases hs : s.inputs with
  | nil =>
    rw [step_of_no_inputs hs]
    exact iff_of_true (goesOn_ownMove _) (fun e rest hcons => by rw [hs] at hcons; cases hcons)
  | cons e rest =>
    have hsafe : s.safe ↔ keepsContract e s := by simp [State.safe, hs]
    rw [step_of_inputs hs, hsafe, ← keepsContract_quietStep e s rest]
    exact goesOn_eventMove

/-! ### Quiescence -/

/-- With nothing supplied the block is quiescent after as many steps as it has work. -/
theorem run_work {s : State} (hs : s.inputs = []) :
    ∃ t, core.run s.work s = .next t ∧ t.quiescent ∧ t.inputs = [] := by
  induction hwork : s.work generalizing s with
  | zero => exact ⟨s, rfl, State.work_eq_zero_iff.mp hwork, hs⟩
  | succ n ih =>
    have hbusy : ¬ (quietStep s).quiescent := fun h =>
      Nat.succ_ne_zero n (hwork.symm.trans (State.work_eq_zero_iff.mpr h))
    obtain ⟨u, hmove, hinputs, hless⟩ := ownMove_doesWork hbusy
    obtain ⟨t, hrun, hquiet⟩ := ih (hinputs.trans hs) (Nat.succ.inj (hless.trans hwork))
    exact ⟨t, (run_succ_of_step ((step_of_no_inputs hs).trans hmove) n).trans hrun, hquiet⟩

/-- Settles O41, by the work there is. -/
theorem aSuppliedRunEndsQuiescent : Obligations.ASuppliedRunEndsQuiescent := fun s hs =>
  ⟨s.work, s.work_le, run_work hs⟩

end Sys2Proof.Machine
end

section
/-! The start-up: INIT and the first LOAD, issued by the control loop and run to their ends (70_reset_and_hazards.md
R173, 42_tuning_context.md R131). -/

namespace Sys2Proof.Machine

open Sys2Proof

/-- A run goes on from where its first steps end. -/
theorem run_add_of_run {s t : State} {j : Nat} (h : core.run j s = .next t) (k : Nat) :
    core.run (j + k) s = core.run k t := by
  induction j generalizing s with
  | zero => cases h; rw [Nat.zero_add]
  | succ j ih =>
    cases hstep : step s with
    | next u =>
      rw [run_succ_of_step hstep] at h
      rw [Nat.succ_add, run_succ_of_step hstep, ih h]
    | fault r => cases r
    | refused r =>
      have hcore : core.step s = .refused r := hstep
      simp only [Host.Core.run, hcore] at h
      cases h

/-- The loop at boot issues INIT, and will owe the recommit. -/
theorem step_loop_boot {s : State} {l : Look} {rest : List Event} (hs : s.inputs = .loop l :: rest)
    (idle : s.ser.seq = .idle) (phase : s.env.phase = .boot) (live : s.inReset = false) :
    step s = .next { s with
      inputs := rest, qdec := noStep s.qdec, ser := beginInit s.ser, env := { s.env with phase := .recommit } } := by
  have hbusy : (quietStep { s with inputs := rest }).busy = false := busy_eq_false_iff.mpr idle
  have hlive : (quietStep { s with inputs := rest }).inReset = false := live
  have haccept : exec (.init 0) (quietStep { s with inputs := rest }) = _ := accept_of_idle idle
  rw [step_of_inputs hs, eventMove, loopMove, hbusy, quietStep_env, phase, presentMove_live hlive, haccept]
  rfl

/-- The loop's turn at boot, run to the end. -/
theorem run_loop_boot {s : State} {l : Look} {rest : List Event} (hs : s.inputs = .loop l :: .run :: rest)
    (idle : s.ser.seq = .idle) (phase : s.env.phase = .boot) (live : s.inReset = false) :
    core.run 5 s = .next { s with
      inputs := rest, qdec := noStep s.qdec
      ser := { s.ser with reset := false, clk := false, seq := .idle, trace := s.ser.trace ++ initTrace }
      rx := receivedAfter 4 (beginInit s.ser) s.rx
      env := { s.env with phase := .recommit } } := by
  rw [run_succ_of_step (step_loop_boot hs idle phase live), ← microSteps_init]
  exact run_command 3 rfl (fun _ => busy_init s.ser) (by rw [microSteps_init])

/-- The loop's recommit of a legal frequency, run to the end from low lines: the receiver has committed the frame. -/
theorem run_loop_recommit {s : State} {l : Look} {rest : List Event} (hs : s.inputs = .loop l :: .run :: rest)
    (idle : s.ser.seq = .idle) (phase : s.env.phase = .recommit) (live : s.inReset = false)
    (hclk : s.ser.clk = false) (hfqUd : s.ser.fqUd = false) {u : TuningState} (tuning : s.env.tuning = u)
    (legal : loadFrequency u ≤ 124999999) {F : Frame} (hF : frameOf (tuningWord (loadFrequency u)) = F) :
    core.run 123 s = .next { s with
      inputs := rest, qdec := noStep s.qdec
      ser := { s.ser with
        data := false, clk := false, fqUd := false, seq := .idle, shreg := F, trace := s.ser.trace ++ frameTrace F }
      rx := { stage := F, cnt := 40, committed := some F }
      env := { s.env with phase := .poll, shown := some (displayItems u) } } := by
  subst hF tuning
  have hstep := (step_loop_recommit hs idle phase).trans (recommitMove_of_legal idle legal)
  rw [quietStep_inReset, if_neg (by simp [live])] at hstep
  have hload := beginFrame_seq (tuningWord (loadFrequency s.env.tuning)) s.ser
  have hrx := (receivedAfter_frame hload hclk hfqUd s.rx).trans (commit_clockInBits ..)
  rw [run_succ_of_step hstep, ← microSteps_beginFrame, ← beginFrame_shreg _ s.ser, ← hrx]
  exact run_command 121 rfl (fun _ => busy_frame hload) (by rw [quietStep_ser, microSteps_beginFrame])

/-- The frame of 14 000 000 Hz is the document's (95_test_vectors.md P5). -/
theorem frameOf_startFrequency : frameOf (tuningWord (loadFrequency .start)) = 0x001CAC0831#40 := by
  decide

theorem loadFrequency_start_le : loadFrequency .start ≤ 124999999 :=
  tuningInv_start.loadFrequency_le.trans (by decide)

/-- Settles O33: INIT and its four micro-steps, then the LOAD and its 122. -/
theorem startUpIssuesInitThenTheFirstLoad : Obligations.StartUpIssuesInitThenTheFirstLoad := by
  intro l l'
  have hinit := run_loop_boot (s := { State.reset with inputs := [.loop l, .run, .loop l', .run] }) rfl rfl rfl rfl
  exact ⟨_, (run_add_of_run hinit 123).trans
    (run_loop_recommit (u := .start) rfl rfl rfl rfl rfl rfl rfl loadFrequency_start_le frameOf_startFrequency),
    rfl, rfl, rfl, rfl, rfl⟩

end Sys2Proof.Machine
end
